-- ==== Sys2Proof/Word.lean ====
section
/-! DEFINITION. The word types of CORE (spec 00_scope.md rules R7, R10): bytes, 16-bit words, the 24-bit decoded instruction word. -/

namespace Sys2Proof

/-- An 8-bit register, memory datum or immediate (`u8` of rule R10). -/
abbrev Byte := BitVec 8

/-- A 16-bit pair, stack pointer, program counter or address (`u16` of rule R10). -/
abbrev Word16 := BitVec 16

/-- The decoded instruction word, 24 bits (30_encoding.md rule R61). -/
abbrev DIW := BitVec 24

end Sys2Proof
end

