-- ==== Sys2Proof/Syntax.lean ====
section
/-! DEFINITION. The instructions: registers and targets (30_encoding.md rule R63), the 29 kinds (rule R62), the descriptor
{kind, target, payload} (rule R60) with its three factories (rule R76), and `Instr`, one constructor for each of the 60
rows of the opcode map (rule R75). -/

namespace Sys2Proof

/-- The seven 8-bit data registers (10_state.md rule R20). F is a flags value, never an operand (rule R29). -/
inductive Reg8
  | b | c | d | e | h | l | a
  deriving DecidableEq, Repr

/-- The 16-bit targets: the pairs used as plain values, and the stack pointer (30_encoding.md rule R63). -/
inductive Reg16
  | bc | de | hl | sp
  deriving DecidableEq, Repr

/-- An 8-bit target that can be written: a register, or `(HL)`, the memory byte at `x[HL]` (rule R63, codes 0 to 7). -/
inductive Target8
  | reg (r : Reg8)
  | mhl
  deriving DecidableEq, Repr

/-- An 8-bit operand: a target, or the carried immediate (40_execute.md rule R94). -/
inductive Operand8
  | target (t : Target8)
  | imm (v : Byte)
  deriving DecidableEq, Repr

/-- The 29 kinds, in the order of rule R62. -/
inductive Kind
  | add | adc | addhl | sub | sbc | cp | and | or | xor | inc | dec | ccf | scf | rra | rla | rrca | rlca
  | rlc | rrc | rl | rr | sla | sra | srl | swap | bit | set | reset | cpl
  deriving DecidableEq, Repr

/-- The 14 targets of the "closed tagged enumeration" (rule R63); `noTarget` is the target "none". -/
inductive Target
  | b | c | d | e | h | l | mhl | a | bc | de | hl | sp | noTarget | f
  deriving DecidableEq, Repr

/-- The payload: absent, an 8-bit immediate, or a bit index (rules R60, R64). -/
inductive Payload
  | absent
  | imm8 (v : Byte)
  | bitIndex (n : Nat)
  deriving DecidableEq, Repr

/-- The instruction descriptor (rule R60). -/
structure Descriptor where
  kind : Kind
  target : Target
  payload : Payload
  deriving DecidableEq, Repr

/-- "register-targeted factory (no payload)" (rule R76). -/
def Descriptor.registerTargeted (k : Kind) (t : Target) : Descriptor := ⟨k, t, .absent⟩

/-- "immediate factory (target forced to "none")" (rule R76). -/
def Descriptor.immediate (k : Kind) (v : Byte) : Descriptor := ⟨k, .noTarget, .imm8 v⟩

/-- "bit-indexed factory (target plus index, no immediate)" (rule R76). -/
def Descriptor.bitIndexed (k : Kind) (t : Target) (n : Nat) : Descriptor := ⟨k, t, .bitIndex n⟩

/-- One constructor for each row of the opcode map (30_encoding.md section 4). Suffix R: register target; M: target `(HL)`;
I: immediate; P: 16-bit target. A bit index is a number; WellFormed bounds it. -/
inductive Instr
  | addR (r : Reg8) | addM | addI (v : Byte)
  | adcR (r : Reg8) | adcM | adcI (v : Byte)
  | subR (r : Reg8) | subM | subI (v : Byte)
  | sbcR (r : Reg8) | sbcM | sbcI (v : Byte)
  | cpR (r : Reg8) | cpM | cpI (v : Byte)
  | andR (r : Reg8) | andM | andI (v : Byte)
  | orR (r : Reg8) | orM | orI (v : Byte)
  | xorR (r : Reg8) | xorM | xorI (v : Byte)
  | addhlP (p : Reg16)
  | incR (r : Reg8) | incM | incP (p : Reg16)
  | decR (r : Reg8) | decM | decP (p : Reg16)
  | ccf | scf | rra | rla | rrca | rlca
  | rlcR (r : Reg8) | rlcM
  | rrcR (r : Reg8) | rrcM
  | rlR (r : Reg8) | rlM
  | rrR (r : Reg8) | rrM
  | slaR (r : Reg8) | slaM
  | sraR (r : Reg8) | sraM
  | srlR (r : Reg8) | srlM
  | swapR (r : Reg8) | swapM
  | bitR (n : Nat) (r : Reg8) | bitM (n : Nat)
  | setR (n : Nat) (r : Reg8) | setM (n : Nat)
  | resetR (n : Nat) (r : Reg8) | resetM (n : Nat)
  | cpl
  deriving DecidableEq, Repr

end Sys2Proof
end

