-- ==== Sys2Proof/WellFormed.lean ====
section
/-! DEFINITION. Which descriptors and which instructions are legal (30_encoding.md rules R66, R69, R71). The check on the
bits of a word, `wfWord`, stands in Decode.lean with the field extractors it reads. -/

namespace Sys2Proof

/-- The operand classes of rule R69. -/
inductive KindClass
  | alu8 | add16 | incdec | impl | shift | bitop
  deriving DecidableEq, Repr

/-- The class column of rule R62. -/
def Kind.cls : Kind → KindClass
  | .add | .adc | .sub | .sbc | .cp | .and | .or | .xor => .alu8
  | .addhl => .add16
  | .inc | .dec => .incdec
  | .ccf | .scf | .rra | .rla | .rrca | .rlca | .cpl => .impl
  | .rlc | .rrc | .rl | .rr | .sla | .sra | .srl | .swap => .shift
  | .bit | .set | .reset => .bitop

/-- The 8-bit target a target names: codes 0 to 7 of rule R63. -/
def Target.target8 : Target → Option Target8
  | .b => some (.reg .b)
  | .c => some (.reg .c)
  | .d => some (.reg .d)
  | .e => some (.reg .e)
  | .h => some (.reg .h)
  | .l => some (.reg .l)
  | .a => some (.reg .a)
  | .mhl => some .mhl
  | .bc | .de | .hl | .sp | .noTarget | .f => none

/-- The 16-bit target a target names: codes 8 to 11 of rule R63. -/
def Target.reg16 : Target → Option Reg16
  | .bc => some .bc
  | .de => some .de
  | .hl => some .hl
  | .sp => some .sp
  | .b | .c | .d | .e | .h | .l | .a | .mhl | .noTarget | .f => none

/-- A bit index is 0 to 7 (rule R66). -/
def bitIndexOk (n : Nat) : Bool := decide (n < 8)

/-- Rule R69 read on the descriptor: the (kind, target, payload) combinations that have a defined resolution. -/
def Descriptor.legal (d : Descriptor) : Bool :=
  match d.kind.cls, d.payload with
  | .alu8, .absent => d.target.target8.isSome
  | .alu8, .imm8 _ => d.target == .noTarget
  | .add16, .absent => d.target.reg16.isSome
  | .incdec, .absent => d.target.target8.isSome || d.target.reg16.isSome
  | .impl, .absent => d.target == .noTarget
  | .shift, .absent => d.target.target8.isSome
  | .bitop, .bitIndex n => d.target.target8.isSome && bitIndexOk n
  | _, _ => false

/-- An instruction is well formed when its bit index, if it has one, is 0 to 7 (rule R66); the types of the other operands
admit exactly what rule R69 admits. -/
def Instr.wellFormed : Instr → Bool
  | .addR _ | .addM | .addI _ | .adcR _ | .adcM | .adcI _ => true
  | .subR _ | .subM | .subI _ | .sbcR _ | .sbcM | .sbcI _ => true
  | .cpR _ | .cpM | .cpI _ | .andR _ | .andM | .andI _ => true
  | .orR _ | .orM | .orI _ | .xorR _ | .xorM | .xorI _ => true
  | .addhlP _ | .incR _ | .incM | .incP _ | .decR _ | .decM | .decP _ => true
  | .ccf | .scf | .rra | .rla | .rrca | .rlca | .cpl => true
  | .rlcR _ | .rlcM | .rrcR _ | .rrcM | .rlR _ | .rlM | .rrR _ | .rrM => true
  | .slaR _ | .slaM | .sraR _ | .sraM | .srlR _ | .srlM | .swapR _ | .swapM => true
  | .bitR n _ | .bitM n | .setR n _ | .setM n | .resetR n _ | .resetM n => bitIndexOk n

end Sys2Proof
end

