-- ==== Sys2Proof/Decode.lean ====
section
/-! DEFINITION. The 24-bit decoded instruction word: its fields (30_encoding.md rule R61), the codes of kinds, targets and
payload tags (rules R62 to R64), the well-formedness check on a word (rule R69), the decoder, the encoder, and the opcode
map (rule R75). -/

namespace Sys2Proof

/-! ## The fields of a word (rule R61) -/

/-- KIND, bits 23:16. -/
def kindField (w : DIW) : BitVec 8 := w.extractLsb' 16 8

/-- PTAG, bits 15:14. -/
def ptagField (w : DIW) : BitVec 2 := w.extractLsb' 14 2

/-- RSV, bits 13:12. -/
def rsvField (w : DIW) : BitVec 2 := w.extractLsb' 12 2

/-- TGT, bits 11:8. -/
def tgtField (w : DIW) : BitVec 4 := w.extractLsb' 8 4

/-- PVAL, bits 7:0. -/
def pvalField (w : DIW) : Byte := w.extractLsb' 0 8

/-- The word with the given fields. -/
def packFields (k : BitVec 8) (p : BitVec 2) (rsv : BitVec 2) (t : BitVec 4) (v : Byte) : DIW :=
  k ++ p ++ rsv ++ t ++ v

/-! ## Codes (rules R62, R63, R64) -/

/-- The code of a kind (rule R62). -/
def kindCode : Kind → BitVec 8
  | .add => 0x01
  | .adc => 0x02
  | .addhl => 0x03
  | .sub => 0x04
  | .sbc => 0x05
  | .cp => 0x06
  | .and => 0x07
  | .or => 0x08
  | .xor => 0x09
  | .inc => 0x0A
  | .dec => 0x0B
  | .ccf => 0x0C
  | .scf => 0x0D
  | .rra => 0x0E
  | .rla => 0x0F
  | .rrca => 0x10
  | .rlca => 0x11
  | .rlc => 0x12
  | .rrc => 0x13
  | .rl => 0x14
  | .rr => 0x15
  | .sla => 0x16
  | .sra => 0x17
  | .srl => 0x18
  | .swap => 0x19
  | .bit => 0x1A
  | .set => 0x1B
  | .reset => 0x1C
  | .cpl => 0x1D

/-- The kind a code selects; codes 0x00 and 0x1E to 0xFF are reserved (rule R62). -/
def kindOfCode (k : BitVec 8) : Option Kind :=
  match k.toNat with
  | 0x01 => some .add
  | 0x02 => some .adc
  | 0x03 => some .addhl
  | 0x04 => some .sub
  | 0x05 => some .sbc
  | 0x06 => some .cp
  | 0x07 => some .and
  | 0x08 => some .or
  | 0x09 => some .xor
  | 0x0A => some .inc
  | 0x0B => some .dec
  | 0x0C => some .ccf
  | 0x0D => some .scf
  | 0x0E => some .rra
  | 0x0F => some .rla
  | 0x10 => some .rrca
  | 0x11 => some .rlca
  | 0x12 => some .rlc
  | 0x13 => some .rrc
  | 0x14 => some .rl
  | 0x15 => some .rr
  | 0x16 => some .sla
  | 0x17 => some .sra
  | 0x18 => some .srl
  | 0x19 => some .swap
  | 0x1A => some .bit
  | 0x1B => some .set
  | 0x1C => some .reset
  | 0x1D => some .cpl
  | _ => none

/-- The code of a target (rule R63). -/
def targetCode : Target → BitVec 4
  | .b => 0
  | .c => 1
  | .d => 2
  | .e => 3
  | .h => 4
  | .l => 5
  | .mhl => 6
  | .a => 7
  | .bc => 8
  | .de => 9
  | .hl => 10
  | .sp => 11
  | .noTarget => 12
  | .f => 13

/-- The target a code selects; codes 14 and 15 are reserved (rule R63). -/
def targetOfCode (t : BitVec 4) : Option Target :=
  match t.toNat with
  | 0 => some .b
  | 1 => some .c
  | 2 => some .d
  | 3 => some .e
  | 4 => some .h
  | 5 => some .l
  | 6 => some .mhl
  | 7 => some .a
  | 8 => some .bc
  | 9 => some .de
  | 10 => some .hl
  | 11 => some .sp
  | 12 => some .noTarget
  | 13 => some .f
  | _ => none

/-- PTAG 0: no payload (rule R64). -/
def ptagAbsent : BitVec 2 := 0

/-- PTAG 1: an immediate in PVAL (rule R64). -/
def ptagImm8 : BitVec 2 := 1

/-- PTAG 2: a bit index in PVAL[2:0] (rule R64). -/
def ptagBitIndex : BitVec 2 := 2

/-- Rule R69, as it is written there: which words are instructions. -/
def wfWord (w : DIW) : Bool :=
  let p := ptagField w
  let t := tgtField w
  let v := pvalField w
  rsvField w == 0 &&
    match kindOfCode (kindField w) with
    | none => false
    | some k =>
      match k.cls with
      | .alu8 => (t.ule 7 && p == ptagAbsent && v == 0) || (t == 12 && p == ptagImm8)
      | .add16 => (8#4).ule t && t.ule 11 && p == ptagAbsent && v == 0
      | .incdec => t.ule 11 && p == ptagAbsent && v == 0
      | .impl => t == 12 && p == ptagAbsent && v == 0
      | .shift => t.ule 7 && p == ptagAbsent && v == 0
      | .bitop => t.ule 7 && p == ptagBitIndex && v.extractLsb' 3 5 == 0

/-! ## The decoder -/

/-- Why a word is malformed. The reasons and their order are the model's own (log entry 11): the fault of rule R200 records
only KIND and TGT, whatever the defect (60_exceptions.md rule R206). -/
inductive Malformed
  | reservedBits | reservedKind | reservedTarget | reservedPtag | payloadNotZero | bitIndexTooBig | noSuchForm
  deriving DecidableEq, Repr

/-- What the decoder answers for a word. -/
inductive Decoded
  | ok (i : Instr)
  | malformed (why : Malformed)
  deriving DecidableEq, Repr

/-- The instruction, where there is one. -/
def Decoded.instr? : Decoded → Option Instr
  | .ok i => some i
  | .malformed _ => none

/-- The forms of an ALU8 kind: register, `(HL)`, immediate (rule R69). -/
def alu8Form (onReg : Reg8 → Instr) (onMhl : Instr) (onImm : Byte → Instr) (t : Target) (p : Payload) : Decoded :=
  match t.target8, p with
  | some (.reg r), .absent => .ok (onReg r)
  | some .mhl, .absent => .ok onMhl
  | none, .imm8 v => if t = .noTarget then .ok (onImm v) else .malformed .noSuchForm
  | _, _ => .malformed .noSuchForm

/-- The forms of ADDHL: a 16-bit target (rule R69). -/
def add16Form (onPair : Reg16 → Instr) (t : Target) (p : Payload) : Decoded :=
  match t.reg16, p with
  | some rr, .absent => .ok (onPair rr)
  | _, _ => .malformed .noSuchForm

/-- The forms of INC and DEC: register, `(HL)`, 16-bit target (rule R69). -/
def incDecForm (onReg : Reg8 → Instr) (onMhl : Instr) (onPair : Reg16 → Instr) (t : Target) (p : Payload) : Decoded :=
  match t.target8, t.reg16, p with
  | some (.reg r), _, .absent => .ok (onReg r)
  | some .mhl, _, .absent => .ok onMhl
  | none, some rr, .absent => .ok (onPair rr)
  | _, _, _ => .malformed .noSuchForm

/-- The one form of an operand-less kind: target NONE, no payload (rule R69). -/
def implForm (i : Instr) (t : Target) (p : Payload) : Decoded :=
  match t, p with
  | .noTarget, .absent => .ok i
  | _, _ => .malformed .noSuchForm

/-- The forms of an indexed rotate, a shift or SWAP: register, `(HL)` (rule R69). -/
def shiftForm (onReg : Reg8 → Instr) (onMhl : Instr) (t : Target) (p : Payload) : Decoded :=
  match t.target8, p with
  | some (.reg r), .absent => .ok (onReg r)
  | some .mhl, .absent => .ok onMhl
  | _, _ => .malformed .noSuchForm

/-- The forms of BIT, SET and RESET: register or `(HL)`, with a bit index (rule R69). -/
def bitForm (onReg : Nat → Reg8 → Instr) (onMhl : Nat → Instr) (t : Target) (p : Payload) : Decoded :=
  match t.target8, p with
  | some (.reg r), .bitIndex n => .ok (onReg n r)
  | some .mhl, .bitIndex n => .ok (onMhl n)
  | _, _ => .malformed .noSuchForm

/-- Dispatch on the kind (40_execute.md rule R93), with the forms of its class. -/
def resolve (d : Descriptor) : Decoded :=
  match d.kind with
  | .add => alu8Form .addR .addM .addI d.target d.payload
  | .adc => alu8Form .adcR .adcM .adcI d.target d.payload
  | .addhl => add16Form .addhlP d.target d.payload
  | .sub => alu8Form .subR .subM .subI d.target d.payload
  | .sbc => alu8Form .sbcR .sbcM .sbcI d.target d.payload
  | .cp => alu8Form .cpR .cpM .cpI d.target d.payload
  | .and => alu8Form .andR .andM .andI d.target d.payload
  | .or => alu8Form .orR .orM .orI d.target d.payload
  | .xor => alu8Form .xorR .xorM .xorI d.target d.payload
  | .inc => incDecForm .incR .incM .incP d.target d.payload
  | .dec => incDecForm .decR .decM .decP d.target d.payload
  | .ccf => implForm .ccf d.target d.payload
  | .scf => implForm .scf d.target d.payload
  | .rra => implForm .rra d.target d.payload
  | .rla => implForm .rla d.target d.payload
  | .rrca => implForm .rrca d.target d.payload
  | .rlca => implForm .rlca d.target d.payload
  | .rlc => shiftForm .rlcR .rlcM d.target d.payload
  | .rrc => shiftForm .rrcR .rrcM d.target d.payload
  | .rl => shiftForm .rlR .rlM d.target d.payload
  | .rr => shiftForm .rrR .rrM d.target d.payload
  | .sla => shiftForm .slaR .slaM d.target d.payload
  | .sra => shiftForm .sraR .sraM d.target d.payload
  | .srl => shiftForm .srlR .srlM d.target d.payload
  | .swap => shiftForm .swapR .swapM d.target d.payload
  | .bit => bitForm .bitR .bitM d.target d.payload
  | .set => bitForm .setR .setM d.target d.payload
  | .reset => bitForm .resetR .resetM d.target d.payload
  | .cpl => implForm .cpl d.target d.payload

/-- The payload the tag and the value name (rules R64 to R67). -/
def payloadOfFields (p : BitVec 2) (v : Byte) : Except Malformed Payload :=
  match p.toNat with
  | 0 => if v = 0 then .ok .absent else .error .payloadNotZero
  | 1 => .ok (.imm8 v)
  | 2 => if v.toNat < 8 then .ok (.bitIndex v.toNat) else .error .bitIndexTooBig
  | _ => .error .reservedPtag

/-- The decoder: total on every word, rejecting by name (rules R69, R71; 40_execute.md rule R93). -/
def decode (w : DIW) : Decoded :=
  if rsvField w ≠ 0 then .malformed .reservedBits
  else
    match kindOfCode (kindField w), targetOfCode (tgtField w), payloadOfFields (ptagField w) (pvalField w) with
    | none, _, _ => .malformed .reservedKind
    | some _, none, _ => .malformed .reservedTarget
    | some _, some _, .error e => .malformed e
    | some k, some t, .ok p => resolve ⟨k, t, p⟩

/-- The instruction the decoder reads from a table word `w` of `nbits` bits (the host's question on a row of the opcode
table). There is one length, 24 bits (rule R61): a value that does not fit is no word of the port. -/
def decodeTableWord (nbits w : Nat) : Option Instr :=
  if w % 2 ^ nbits < 2 ^ 24 then (decode (BitVec.ofNat 24 (w % 2 ^ nbits))).instr? else none

/-! ## The encoder -/

/-- The target that names an 8-bit register (rule R63). -/
def Reg8.target : Reg8 → Target
  | .b => .b
  | .c => .c
  | .d => .d
  | .e => .e
  | .h => .h
  | .l => .l
  | .a => .a

/-- The target that names a 16-bit register (rule R63). -/
def Reg16.target : Reg16 → Target
  | .bc => .bc
  | .de => .de
  | .hl => .hl
  | .sp => .sp

/-- The descriptor of an instruction, made by one of the three factories (rule R76). -/
def Instr.descriptor : Instr → Descriptor
  | .addR r => .registerTargeted .add r.target
  | .addM => .registerTargeted .add .mhl
  | .addI v => .immediate .add v
  | .adcR r => .registerTargeted .adc r.target
  | .adcM => .registerTargeted .adc .mhl
  | .adcI v => .immediate .adc v
  | .addhlP p => .registerTargeted .addhl p.target
  | .subR r => .registerTargeted .sub r.target
  | .subM => .registerTargeted .sub .mhl
  | .subI v => .immediate .sub v
  | .sbcR r => .registerTargeted .sbc r.target
  | .sbcM => .registerTargeted .sbc .mhl
  | .sbcI v => .immediate .sbc v
  | .cpR r => .registerTargeted .cp r.target
  | .cpM => .registerTargeted .cp .mhl
  | .cpI v => .immediate .cp v
  | .andR r => .registerTargeted .and r.target
  | .andM => .registerTargeted .and .mhl
  | .andI v => .immediate .and v
  | .orR r => .registerTargeted .or r.target
  | .orM => .registerTargeted .or .mhl
  | .orI v => .immediate .or v
  | .xorR r => .registerTargeted .xor r.target
  | .xorM => .registerTargeted .xor .mhl
  | .xorI v => .immediate .xor v
  | .incR r => .registerTargeted .inc r.target
  | .incM => .registerTargeted .inc .mhl
  | .incP p => .registerTargeted .inc p.target
  | .decR r => .registerTargeted .dec r.target
  | .decM => .registerTargeted .dec .mhl
  | .decP p => .registerTargeted .dec p.target
  | .ccf => .registerTargeted .ccf .noTarget
  | .scf => .registerTargeted .scf .noTarget
  | .rra => .registerTargeted .rra .noTarget
  | .rla => .registerTargeted .rla .noTarget
  | .rrca => .registerTargeted .rrca .noTarget
  | .rlca => .registerTargeted .rlca .noTarget
  | .rlcR r => .registerTargeted .rlc r.target
  | .rlcM => .registerTargeted .rlc .mhl
  | .rrcR r => .registerTargeted .rrc r.target
  | .rrcM => .registerTargeted .rrc .mhl
  | .rlR r => .registerTargeted .rl r.target
  | .rlM => .registerTargeted .rl .mhl
  | .rrR r => .registerTargeted .rr r.target
  | .rrM => .registerTargeted .rr .mhl
  | .slaR r => .registerTargeted .sla r.target
  | .slaM => .registerTargeted .sla .mhl
  | .sraR r => .registerTargeted .sra r.target
  | .sraM => .registerTargeted .sra .mhl
  | .srlR r => .registerTargeted .srl r.target
  | .srlM => .registerTargeted .srl .mhl
  | .swapR r => .registerTargeted .swap r.target
  | .swapM => .registerTargeted .swap .mhl
  | .bitR n r => .bitIndexed .bit r.target n
  | .bitM n => .bitIndexed .bit .mhl n
  | .setR n r => .bitIndexed .set r.target n
  | .setM n => .bitIndexed .set .mhl n
  | .resetR n r => .bitIndexed .reset r.target n
  | .resetM n => .bitIndexed .reset .mhl n
  | .cpl => .registerTargeted .cpl .noTarget

/-- The payload tag (rule R64). -/
def Payload.tag : Payload → BitVec 2
  | .absent => ptagAbsent
  | .imm8 _ => ptagImm8
  | .bitIndex _ => ptagBitIndex

/-- The payload value (rules R65 to R67). -/
def Payload.value : Payload → Byte
  | .absent => 0
  | .imm8 v => v
  | .bitIndex n => BitVec.ofNat 8 n

/-- The word of a descriptor (rules R61, R68). -/
def Descriptor.word (d : Descriptor) : DIW :=
  packFields (kindCode d.kind) d.payload.tag 0 (targetCode d.target) d.payload.value

/-- The word of an instruction. -/
def encode (i : Instr) : DIW := i.descriptor.word

/-! ## The opcode map (rule R75) -/

/-- The formats of the opcode map. -/
inductive Format
  | r8 | mhl | imm8 | rr | impl | bitR8 | bitMhl
  deriving DecidableEq, Repr

/-- One row of the opcode map: its kind, its format, its match and mask columns. -/
structure OpcodeRow where
  kind : Kind
  format : Format
  pattern : DIW
  mask : DIW
  deriving DecidableEq, Repr

/-- "A word w selects a row when `w & mask == match` and, for an F_R8 or F_BIT_R8 row, `w[10:8] != 6`"
(30_encoding.md section 4). -/
def OpcodeRow.selectedBy (row : OpcodeRow) (w : DIW) : Bool :=
  (w &&& row.mask == row.pattern) &&
    match row.format with
    | .r8 | .bitR8 => w.extractLsb' 8 3 != 6
    | .mhl | .imm8 | .rr | .impl | .bitMhl => true

/-- The rows of ADD, ADC, SUB, SBC, CP, AND, OR, XOR. -/
def opcodeRowsAlu8 : List OpcodeRow := [
  ⟨.add, .r8, 0x010000, 0xFFF8FF⟩,
  ⟨.add, .mhl, 0x010600, 0xFFFFFF⟩,
  ⟨.add, .imm8, 0x014C00, 0xFFFF00⟩,
  ⟨.adc, .r8, 0x020000, 0xFFF8FF⟩,
  ⟨.adc, .mhl, 0x020600, 0xFFFFFF⟩,
  ⟨.adc, .imm8, 0x024C00, 0xFFFF00⟩,
  ⟨.sub, .r8, 0x040000, 0xFFF8FF⟩,
  ⟨.sub, .mhl, 0x040600, 0xFFFFFF⟩,
  ⟨.sub, .imm8, 0x044C00, 0xFFFF00⟩,
  ⟨.sbc, .r8, 0x050000, 0xFFF8FF⟩,
  ⟨.sbc, .mhl, 0x050600, 0xFFFFFF⟩,
  ⟨.sbc, .imm8, 0x054C00, 0xFFFF00⟩,
  ⟨.cp, .r8, 0x060000, 0xFFF8FF⟩,
  ⟨.cp, .mhl, 0x060600, 0xFFFFFF⟩,
  ⟨.cp, .imm8, 0x064C00, 0xFFFF00⟩,
  ⟨.and, .r8, 0x070000, 0xFFF8FF⟩,
  ⟨.and, .mhl, 0x070600, 0xFFFFFF⟩,
  ⟨.and, .imm8, 0x074C00, 0xFFFF00⟩,
  ⟨.or, .r8, 0x080000, 0xFFF8FF⟩,
  ⟨.or, .mhl, 0x080600, 0xFFFFFF⟩,
  ⟨.or, .imm8, 0x084C00, 0xFFFF00⟩,
  ⟨.xor, .r8, 0x090000, 0xFFF8FF⟩,
  ⟨.xor, .mhl, 0x090600, 0xFFFFFF⟩,
  ⟨.xor, .imm8, 0x094C00, 0xFFFF00⟩]

/-- The rows of ADDHL, INC, DEC and the operand-less kinds. -/
def opcodeRowsMid : List OpcodeRow := [
  ⟨.addhl, .rr, 0x030800, 0xFFFCFF⟩,
  ⟨.inc, .r8, 0x0A0000, 0xFFF8FF⟩,
  ⟨.inc, .mhl, 0x0A0600, 0xFFFFFF⟩,
  ⟨.inc, .rr, 0x0A0800, 0xFFFCFF⟩,
  ⟨.dec, .r8, 0x0B0000, 0xFFF8FF⟩,
  ⟨.dec, .mhl, 0x0B0600, 0xFFFFFF⟩,
  ⟨.dec, .rr, 0x0B0800, 0xFFFCFF⟩,
  ⟨.ccf, .impl, 0x0C0C00, 0xFFFFFF⟩,
  ⟨.scf, .impl, 0x0D0C00, 0xFFFFFF⟩,
  ⟨.rra, .impl, 0x0E0C00, 0xFFFFFF⟩,
  ⟨.rla, .impl, 0x0F0C00, 0xFFFFFF⟩,
  ⟨.rrca, .impl, 0x100C00, 0xFFFFFF⟩,
  ⟨.rlca, .impl, 0x110C00, 0xFFFFFF⟩,
  ⟨.cpl, .impl, 0x1D0C00, 0xFFFFFF⟩]

/-- The rows of the indexed rotates, the shifts and SWAP. -/
def opcodeRowsShift : List OpcodeRow := [
  ⟨.rlc, .r8, 0x120000, 0xFFF8FF⟩,
  ⟨.rlc, .mhl, 0x120600, 0xFFFFFF⟩,
  ⟨.rrc, .r8, 0x130000, 0xFFF8FF⟩,
  ⟨.rrc, .mhl, 0x130600, 0xFFFFFF⟩,
  ⟨.rl, .r8, 0x140000, 0xFFF8FF⟩,
  ⟨.rl, .mhl, 0x140600, 0xFFFFFF⟩,
  ⟨.rr, .r8, 0x150000, 0xFFF8FF⟩,
  ⟨.rr, .mhl, 0x150600, 0xFFFFFF⟩,
  ⟨.sla, .r8, 0x160000, 0xFFF8FF⟩,
  ⟨.sla, .mhl, 0x160600, 0xFFFFFF⟩,
  ⟨.sra, .r8, 0x170000, 0xFFF8FF⟩,
  ⟨.sra, .mhl, 0x170600, 0xFFFFFF⟩,
  ⟨.srl, .r8, 0x180000, 0xFFF8FF⟩,
  ⟨.srl, .mhl, 0x180600, 0xFFFFFF⟩,
  ⟨.swap, .r8, 0x190000, 0xFFF8FF⟩,
  ⟨.swap, .mhl, 0x190600, 0xFFFFFF⟩]

/-- The rows of BIT, SET, RESET. -/
def opcodeRowsBit : List OpcodeRow := [
  ⟨.bit, .bitR8, 0x1A8000, 0xFFF8F8⟩,
  ⟨.bit, .bitMhl, 0x1A8600, 0xFFFFF8⟩,
  ⟨.set, .bitR8, 0x1B8000, 0xFFF8F8⟩,
  ⟨.set, .bitMhl, 0x1B8600, 0xFFFFF8⟩,
  ⟨.reset, .bitR8, 0x1C8000, 0xFFF8F8⟩,
  ⟨.reset, .bitMhl, 0x1C8600, 0xFFFFF8⟩]

/-- The opcode map: 60 rows (rule R75). -/
def opcodeMap : List OpcodeRow := opcodeRowsAlu8 ++ opcodeRowsMid ++ opcodeRowsShift ++ opcodeRowsBit

end Sys2Proof
end

