-- ==== Sys2Proof/Config.lean ====
section
/-! DEFINITION. What is fixed for the machine (00_scope.md rules R7, R8). No free value is needed: no result of CORE is
undefined (40_execute.md rule R102). -/

namespace Sys2Proof

/-- "fixed at 65536 bytes" (rule R7, 20_memory.md rule R40). -/
def Config.addressSpace : Nat := 65536

/-- What a byte of memory that nothing has listed reads as. The spec leaves the initial contents OPEN (`initMem`,
92_eei_decisions.md D28). DESIGN CHOICE, unsafe: log entry 4. The contents `initMem` of a particular run are given as a
listed memory (`State.powerOn`). -/
def Config.unlistedByte : Byte := 0

end Sys2Proof
end

