-- ==== Sys2Proof/Machine/State.lean ====
section
/-! DEFINITION. The state of the machine (10_state.md rule R36: CORE's registers, flags and fault latch, and memory beside
them), what the harness drives and what the last step drove on the ports (40_execute.md rule R91), and the reset state
(rules R37, R38). -/

namespace Sys2Proof.Machine

/-- The flags value F: four independent booleans (rule R25). -/
structure Flags where
  z : Bool
  n : Bool
  h : Bool
  c : Bool
  deriving DecidableEq, Repr

/-- The fault latch (rule R30): the KIND and TGT fields of the malformed word, once one has come. -/
inductive FaultLatch
  | none
  | faulted (kind : BitVec 8) (tgt : BitVec 4)
  deriving DecidableEq, Repr

/-- What the harness drives on the input ports in one step: `rst`, `req` and `diw` (40_execute.md rule R91). -/
structure Request where
  rst : Bool
  req : Bool
  diw : DIW
  deriving DecidableEq, Repr

/-- One access on the bus: `MemRead(addr, 1)` returning `data`, or `MemWrite(addr, 1, data)` (20_memory.md rules R40, R43). -/
inductive BusAccess
  | read (addr : Word16) (data : Byte)
  | write (addr : Word16) (data : Byte)
  deriving DecidableEq, Repr

/-- What the last step was: no request; one of the three outcomes of 40_execute.md rule R92; or a reset (rule R220). -/
inductive StepOutcome
  | idle
  | ok
  | fault (kind : BitVec 8) (tgt : BitVec 4)
  | refused
  | reset
  deriving DecidableEq, Repr

/-- What the last step drove on the output ports: its outcome, and its bus accesses in order (rule R91). The model's own
fields: log entry 5. -/
structure Outputs where
  outcome : StepOutcome
  bus : List BusAccess
  deriving DecidableEq, Repr

/-- Memory: (address, byte) pairs, addresses strictly rising, no entry equal to what an unlisted address reads as
(`Memory.wf` in Ops.lean). -/
abbrev Memory := List Host.Cell

/-- The machine state. The first twelve fields and `mem` are the spec's (rule R36); `inputs` and `out` are the model's own
(log entries 1 and 5). -/
structure State where
  a : Byte
  b : Byte
  c : Byte
  d : Byte
  e : Byte
  h : Byte
  l : Byte
  f : Flags
  pc : Word16
  sp : Word16
  fault : FaultLatch
  mem : Memory
  inputs : List Request
  out : Outputs
  deriving DecidableEq, Repr

/-- No step of this machine ends in a host fault. The one exception of the spec (60_exceptions.md rules R200, R204) is a
NEXT state with the fault latch set (log entry 2), so this type has no constructor. Safe: nothing is stopped. -/
inductive Fault
  deriving DecidableEq, Repr

/-- Why a step may be refused by the model. -/
inductive Refusal
  /-- Raised by a rejected arm of `exec` only, for an instruction with no meaning yet; no arm raises it. Safe: the model
  stops where the hardware goes on. -/
  | notModelled (mnemonic : String)
  deriving DecidableEq, Repr

/-- The machine after reset with the memory contents `initMem` (rules R37, R38; the parameter of 92_eei_decisions.md D28). -/
def State.powerOn (initMem : Memory) : State where
  a := 0
  b := 0
  c := 0
  d := 0
  e := 0
  h := 0
  l := 0
  f := ⟨false, false, false, false⟩
  pc := 0
  sp := 0
  fault := .none
  mem := initMem
  inputs := []
  out := ⟨.idle, []⟩

/-- The machine right after reset: every register zero, the latch none (rules R37, R38), no memory byte listed (log entry
4), no request on the ports (log entry 1). -/
def State.reset : State := State.powerOn []

end Sys2Proof.Machine
end

