-- ==== Sys2Proof/Machine/Flags.lean ====
section
/-! DEFINITION. The flags: the encoder and decoder of the flags byte (10_state.md rules R25 to R27), the flag part of the
commit mux (40_execute.md rule R98), and the flag computations the kinds share. -/

namespace Sys2Proof.Machine

/-- `b2i` (00_scope.md rule R11). -/
def b2i (b : Bool) : Nat := if b then 1 else 0

/-- `b2i` as a byte. -/
def boolByte (b : Bool) : Byte := BitVec.ofNat 8 (b2i b)

/-- The flags encoder `to_byte` (rule R26). -/
def Flags.toByte (f : Flags) : Byte :=
  boolByte f.z <<< 7 ||| boolByte f.n <<< 6 ||| boolByte f.h <<< 5 ||| boolByte f.c <<< 4

/-- `bit(v, n) == 1` (00_scope.md rule R11). -/
def bitOf (v : Byte) (n : Nat) : Bool := (v >>> n) &&& 1 == 1

/-- The flags decoder `from_byte` (rule R27). -/
def Flags.fromByte (v : Byte) : Flags := ⟨bitOf v 7, bitOf v 6, bitOf v 5, bitOf v 4⟩

/-- What a kind commits to one flag: one of the four selections of rule R98. -/
inductive FlagSel
  | keep
  | force0
  | force1
  | computed (b : Bool)
  deriving DecidableEq, Repr

/-- The flag after the commit (rule R98: "A kept flag holds the value it had before the transaction"). -/
def FlagSel.apply (sel : FlagSel) (old : Bool) : Bool :=
  match sel with
  | .keep => old
  | .force0 => false
  | .force1 => true
  | .computed b => b

/-- What a kind commits to the four flags. -/
structure FlagCommit where
  z : FlagSel
  n : FlagSel
  h : FlagSel
  c : FlagSel
  deriving DecidableEq, Repr

/-- The flags after the commit; all four are written together (rule R98). -/
def FlagCommit.apply (u : FlagCommit) (f : Flags) : Flags :=
  ⟨u.z.apply f.z, u.n.apply f.n, u.h.apply f.h, u.c.apply f.c⟩

/-- A commit that keeps all four flags: the 16-bit INC and DEC, SET, RESET. -/
def FlagCommit.keepAll : FlagCommit := ⟨.keep, .keep, .keep, .keep⟩

/-- `res == 0`. -/
def isZero (res : Byte) : Bool := res == 0

/-- The low nibble, `v & 0xF`, as an integer. -/
def lowNibble (v : Byte) : Nat := (v &&& 0x0F).toNat

/-- Half-carry of an 8-bit addition: carry out of bit 3 (41_arithmetic.md rules R111, R112). -/
def halfCarryAdd (acc opnd : Byte) (cin : Nat) : Bool := decide (lowNibble acc + lowNibble opnd + cin > 0xF)

/-- Carry of an 8-bit addition: carry out of bit 7 (rules R111, R112). -/
def carryAdd (acc opnd : Byte) (cin : Nat) : Bool := decide (acc.toNat + opnd.toNat + cin > 0xFF)

/-- Half-carry of an 8-bit subtraction: borrow from bit 4; the right side is not truncated (rules R114, R115). -/
def halfCarrySub (acc opnd : Byte) (cin : Nat) : Bool := decide (lowNibble acc < lowNibble opnd + cin)

/-- Carry of an 8-bit subtraction: borrow; the right side is not truncated (rules R114, R115). -/
def carrySub (acc opnd : Byte) (cin : Nat) : Bool := decide (acc.toNat < opnd.toNat + cin)

/-- The low twelve bits, `v & 0xFFF`, as an integer. -/
def lowTwelve (v : Word16) : Nat := (v &&& 0x0FFF).toNat

/-- Half-carry of the 16-bit addition: carry out of bit 11 (rule R113, 90_conflicts.md C5). -/
def halfCarryAdd16 (x y : Word16) : Bool := decide (lowTwelve x + lowTwelve y > 0xFFF)

/-- Carry of the 16-bit addition: carry out of bit 15 (rule R113). -/
def carryAdd16 (x y : Word16) : Bool := decide (x.toNat + y.toNat > 0xFFFF)

end Sys2Proof.Machine
end

