-- ==== Sys2Proof/Machine/Ops.lean ====
section
/-! DEFINITION. The named operations over memory and registers: the memory bus (20_memory.md rules R40, R41), the registers
and pair views (10_state.md rules R20 to R24), taking the malformed-instruction fault (60_exceptions.md rules R200, R201,
R207), the refusal while faulted (rule R203), and reset, the only way back (rules R208, R220). -/

namespace Sys2Proof.Machine

/-! ## Memory -/

/-- `mem(addr)` (rule R41). -/
def Memory.read : Memory → Nat → Byte
  | [], _ => Config.unlistedByte
  | (k, v) :: rest, addr => if addr = k then v else Memory.read rest addr

/-- `mem(addr) <- v` (rule R41), in canonical form: the byte an unlisted address reads as is not listed. -/
def Memory.write : Memory → Nat → Byte → Memory
  | [], addr, v => if v = Config.unlistedByte then [] else [(addr, v)]
  | (k, w) :: rest, addr, v =>
    if addr < k then
      if v = Config.unlistedByte then (k, w) :: rest else (addr, v) :: (k, w) :: rest
    else if addr = k then
      if v = Config.unlistedByte then rest else (addr, v) :: rest
    else (k, w) :: Memory.write rest addr v

/-- The canonical form from address `lo` on: addresses strictly rising inside the address space, no listed byte equal to
what an unlisted address reads as. -/
def Memory.wfFrom : Nat → Memory → Bool
  | _, [] => true
  | lo, (k, v) :: rest =>
    decide (lo ≤ k) && decide (k < Config.addressSpace) && decide (v ≠ Config.unlistedByte) && Memory.wfFrom (k + 1) rest

/-- The canonical form of a memory. -/
def Memory.wf (m : Memory) : Bool := Memory.wfFrom 0 m

/-! ## Registers and pair views -/

/-- `x[r]` (00_scope.md rule R11). -/
def State.reg8 (s : State) : Reg8 → Byte
  | .a => s.a
  | .b => s.b
  | .c => s.c
  | .d => s.d
  | .e => s.e
  | .h => s.h
  | .l => s.l

/-- `x[r] <- v`. -/
def State.setReg8 (s : State) (r : Reg8) (v : Byte) : State :=
  match r with
  | .a => { s with a := v }
  | .b => { s with b := v }
  | .c => { s with c := v }
  | .d => { s with d := v }
  | .e => { s with e := v }
  | .h => { s with h := v }
  | .l => { s with l := v }

/-- The pair value, high register first (10_state.md rule R22). -/
def pairOf (hi lo : Byte) : Word16 := hi ++ lo

/-- The high byte, `v[15:8]` (rule R23). -/
def highByte (v : Word16) : Byte := v.extractLsb' 8 8

/-- The low byte, `v[7:0]` (rule R23). -/
def lowByte (v : Word16) : Byte := v.extractLsb' 0 8

/-- `x[BC]`, `x[DE]`, `x[HL]` (rule R22) and `x[SP]`: the 16-bit operand read of 40_execute.md rule R95. -/
def State.reg16 (s : State) : Reg16 → Word16
  | .bc => pairOf s.b s.c
  | .de => pairOf s.d s.e
  | .hl => pairOf s.h s.l
  | .sp => s.sp

/-- `x[P] <- v` (rule R23) and `x[SP] <- v`: the 16-bit result write of 40_execute.md rule R96. -/
def State.setReg16 (s : State) (p : Reg16) (v : Word16) : State :=
  match p with
  | .bc => { s with b := highByte v, c := lowByte v }
  | .de => { s with d := highByte v, e := lowByte v }
  | .hl => { s with h := highByte v, l := lowByte v }
  | .sp => { s with sp := v }

/-! ## The bus -/

/-- The only address CORE generates, `x[HL]` (20_memory.md rule R42, 40_execute.md rule R105). -/
def State.hlAddr (s : State) : Word16 := s.reg16 .hl

/-- The byte of memory at `x[HL]`. -/
def State.hlByte (s : State) : Byte := s.mem.read s.hlAddr.toNat

/-- Adds an access to those of the current step (20_memory.md rule R43). -/
def State.logAccess (s : State) (x : BusAccess) : State :=
  { s with out := { s.out with bus := s.out.bus ++ [x] } }

/-- `MemRead(x[HL], 1)`: the byte, and the state with the access on the bus; memory does not change (rule R41). -/
def State.busReadHL (s : State) : Byte × State :=
  (s.hlByte, s.logAccess (.read s.hlAddr s.hlByte))

/-- `MemWrite(x[HL], 1, v)` (rule R41). -/
def State.busWriteHL (s : State) (v : Byte) : State :=
  { s.logAccess (.write s.hlAddr v) with mem := s.mem.write s.hlAddr.toNat v }

/-! ## The one exception, and the way out of it -/

/-- Taking MalformedInstruction: the latch records KIND and TGT, and nothing else of the machine changes (60_exceptions.md
rules R200, R201, R207). The outcome is recorded on the outputs, with no bus access. -/
def State.takeMalformed (s : State) (kind : BitVec 8) (tgt : BitVec 4) : State :=
  { s with fault := .faulted kind tgt, out := ⟨.fault kind tgt, []⟩ }

/-- A request while the latch is faulted: no step, no change (rule R203). -/
def State.refuseRequest (s : State) : State := { s with out := ⟨.refused, []⟩ }

/-- `rst`: every register, flag and the latch at the reset values, memory unchanged (70_reset_and_hazards.md rules R220,
R227). What the harness will drive in later steps stays (log entry 12). -/
def State.applyReset (s : State) : State :=
  { State.powerOn s.mem with inputs := s.inputs, out := ⟨.reset, []⟩ }

end Sys2Proof.Machine
end

