-- ==== Sys2Proof/Machine/Operands.lean ====
section
/-! DEFINITION. The operand resolver (40_execute.md rules R94, R95), the commit mux (rules R96 to R99), and the shapes the
kinds share: which operand is read, which destination is written (rule R97). An ALU primitive is a pure function handed to
a shape (rule R100). -/

namespace Sys2Proof.Machine

/-- `readOp8` (rule R94): the value, and the state with the bus access a `(HL)` operand makes. -/
def readOp8 (o : Operand8) (s : State) : Byte × State :=
  match o with
  | .target (.reg r) => (s.reg8 r, s)
  | .target .mhl => s.busReadHL
  | .imm v => (v, s)

/-- `writeOp8` (rule R96). -/
def writeOp8 (t : Target8) (v : Byte) (s : State) : State :=
  match t with
  | .reg r => s.setReg8 r v
  | .mhl => s.busWriteHL v

/-- The flag part of the commit (rule R98). -/
def commitFlags (u : FlagCommit) (s : State) : State := { s with f := u.apply s.f }

/-- What an 8-bit ALU primitive returns: "a new value and a new flag set" (rule R100). -/
structure AluOut where
  result : Byte
  flags : FlagCommit
  deriving DecidableEq, Repr

/-- What the 16-bit ALU primitive returns. -/
structure Alu16Out where
  result : Word16
  flags : FlagCommit
  deriving DecidableEq, Repr

/-- Shape of ADD ADC SUB SBC AND OR XOR: one operand is read, the destination is A (rule R97). -/
def accumulate (alu : Byte → AluOut) (o : Operand8) (s : State) : Host.Outcome State Fault Refusal :=
  let rd := readOp8 o s
  let out := alu rd.1
  .next (commitFlags out.flags (rd.2.setReg8 .a out.result))

/-- Shape of CP and BIT: one operand is read, only flags are written (rule R97). -/
def testOperand (alu : Byte → FlagCommit) (o : Operand8) (s : State) : Host.Outcome State Fault Refusal :=
  let rd := readOp8 o s
  .next (commitFlags (alu rd.1) rd.2)

/-- Shape of 8-bit INC and DEC, the indexed rotates and shifts, SWAP, SET, RESET: the target is read and written (rule R97). -/
def modify8 (alu : Byte → AluOut) (t : Target8) (s : State) : Host.Outcome State Fault Refusal :=
  let rd := readOp8 (.target t) s
  let out := alu rd.1
  .next (commitFlags out.flags (writeOp8 t out.result rd.2))

/-- Shape of 16-bit INC and DEC: the target is read and written, no flag changes (43_inc_dec.md rules R140, R141). -/
def modify16 (alu : Word16 → Word16) (p : Reg16) (s : State) : Host.Outcome State Fault Refusal :=
  .next (s.setReg16 p (alu (s.reg16 p)))

/-- Shape of ADDHL: a 16-bit operand is read, the destination is HL (rule R97). -/
def accumulate16 (alu : Word16 → Alu16Out) (p : Reg16) (s : State) : Host.Outcome State Fault Refusal :=
  let out := alu (s.reg16 p)
  .next (commitFlags out.flags (s.setReg16 .hl out.result))

/-- Shape of RRA RLA RRCA RLCA CPL: A is read and written (rule R97). -/
def modifyA (alu : Byte → AluOut) (s : State) : Host.Outcome State Fault Refusal :=
  let out := alu s.a
  .next (commitFlags out.flags (s.setReg8 .a out.result))

/-- Shape of CCF and SCF: only flags are written (rule R97). -/
def flagsOnly (u : FlagCommit) (s : State) : Host.Outcome State Fault Refusal :=
  .next (commitFlags u s)

end Sys2Proof.Machine
end

