-- ==== Sys2Proof/Machine/Alu.lean ====
section
/-! DEFINITION. The ALU: one pure primitive for each of the 29 kinds (40_execute.md rules R93, R100), as the pseudocode of
41_arithmetic.md to 47_complement.md gives it. Integers are exact and truncated at the end (rule R101). -/

namespace Sys2Proof.Machine

/-- ADD (rule R111). -/
def aluAdd (acc opnd : Byte) : AluOut :=
  let sum := acc.toNat + opnd.toNat
  let res := BitVec.ofNat 8 sum
  ⟨res, ⟨.computed (isZero res), .force0, .computed (halfCarryAdd acc opnd 0), .computed (carryAdd acc opnd 0)⟩⟩

/-- ADC (rule R112). -/
def aluAdc (cin : Bool) (acc opnd : Byte) : AluOut :=
  let sum := acc.toNat + opnd.toNat + b2i cin
  let res := BitVec.ofNat 8 sum
  ⟨res, ⟨.computed (isZero res), .force0, .computed (halfCarryAdd acc opnd (b2i cin)),
    .computed (carryAdd acc opnd (b2i cin))⟩⟩

/-- ADDHL (rule R113). -/
def aluAddHL (hl opnd : Word16) : Alu16Out :=
  ⟨BitVec.ofNat 16 (hl.toNat + opnd.toNat),
    ⟨.keep, .force0, .computed (halfCarryAdd16 hl opnd), .computed (carryAdd16 hl opnd)⟩⟩

/-- SUB (rule R114). -/
def aluSub (acc opnd : Byte) : AluOut :=
  let diff : Int := acc.toNat - opnd.toNat
  let res := BitVec.ofInt 8 diff
  ⟨res, ⟨.computed (isZero res), .force1, .computed (halfCarrySub acc opnd 0), .computed (carrySub acc opnd 0)⟩⟩

/-- SBC (rule R115). -/
def aluSbc (cin : Bool) (acc opnd : Byte) : AluOut :=
  let diff : Int := acc.toNat - opnd.toNat - b2i cin
  let res := BitVec.ofInt 8 diff
  ⟨res, ⟨.computed (isZero res), .force1, .computed (halfCarrySub acc opnd (b2i cin)),
    .computed (carrySub acc opnd (b2i cin))⟩⟩

/-- CP (rule R116): the flags of a subtraction, no result. -/
def aluCp (acc opnd : Byte) : FlagCommit :=
  let diff : Int := acc.toNat - opnd.toNat
  ⟨.computed (isZero (BitVec.ofInt 8 diff)), .force1, .computed (halfCarrySub acc opnd 0),
    .computed (carrySub acc opnd 0)⟩

/-- AND (42_logical.md rule R130). -/
def aluAnd (acc opnd : Byte) : AluOut :=
  let res := acc &&& opnd
  ⟨res, ⟨.computed (isZero res), .force0, .force1, .force0⟩⟩

/-- OR (rule R131). -/
def aluOr (acc opnd : Byte) : AluOut :=
  let res := acc ||| opnd
  ⟨res, ⟨.computed (isZero res), .force0, .force0, .force0⟩⟩

/-- XOR (rule R132). -/
def aluXor (acc opnd : Byte) : AluOut :=
  let res := acc ^^^ opnd
  ⟨res, ⟨.computed (isZero res), .force0, .force0, .force0⟩⟩

/-- INC, 8-bit form (43_inc_dec.md rule R140). -/
def aluInc (old : Byte) : AluOut :=
  let res := BitVec.ofNat 8 (old.toNat + 1)
  ⟨res, ⟨.computed (isZero res), .force0, .computed (decide (lowNibble old + 1 > 0xF)), .keep⟩⟩

/-- INC, 16-bit form (rule R140). -/
def aluInc16 (old : Word16) : Word16 := BitVec.ofNat 16 (old.toNat + 1)

/-- DEC, 8-bit form (rule R141). -/
def aluDec (old : Byte) : AluOut :=
  let diff : Int := old.toNat - 1
  let res := BitVec.ofInt 8 diff
  ⟨res, ⟨.computed (isZero res), .force1, .computed (decide (lowNibble old < 1)), .keep⟩⟩

/-- DEC, 16-bit form (rule R141). -/
def aluDec16 (old : Word16) : Word16 :=
  let diff : Int := old.toNat - 1
  BitVec.ofInt 16 diff

/-- CCF (44_carry_flag.md rule R150). -/
def aluCcf (c : Bool) : FlagCommit := ⟨.keep, .force0, .force0, .computed (!c)⟩

/-- SCF (rule R151). -/
def aluScf : FlagCommit := ⟨.keep, .force0, .force0, .force1⟩

/-- RRA (45_rotate_shift.md rule R160). -/
def aluRra (cin : Bool) (old : Byte) : AluOut :=
  ⟨(old >>> 1) ||| (boolByte cin <<< 7), ⟨.force0, .force0, .force0, .computed (bitOf old 0)⟩⟩

/-- RLA (rule R161). -/
def aluRla (cin : Bool) (old : Byte) : AluOut :=
  ⟨(old <<< 1) ||| boolByte cin, ⟨.force0, .force0, .force0, .computed (bitOf old 7)⟩⟩

/-- RRCA (rule R162). -/
def aluRrca (old : Byte) : AluOut :=
  let out := bitOf old 0
  ⟨(old >>> 1) ||| (boolByte out <<< 7), ⟨.force0, .force0, .force0, .computed out⟩⟩

/-- RLCA (rule R163). -/
def aluRlca (old : Byte) : AluOut :=
  let out := bitOf old 7
  ⟨(old <<< 1) ||| boolByte out, ⟨.force0, .force0, .force0, .computed out⟩⟩

/-- RLC (rule R164). -/
def aluRlc (old : Byte) : AluOut :=
  let out := bitOf old 7
  let res := (old <<< 1) ||| boolByte out
  ⟨res, ⟨.computed (isZero res), .force0, .force0, .computed out⟩⟩

/-- RRC (rule R165). -/
def aluRrc (old : Byte) : AluOut :=
  let out := bitOf old 0
  let res := (old >>> 1) ||| (boolByte out <<< 7)
  ⟨res, ⟨.computed (isZero res), .force0, .force0, .computed out⟩⟩

/-- RL (rule R166). -/
def aluRl (cin : Bool) (old : Byte) : AluOut :=
  let res := (old <<< 1) ||| boolByte cin
  ⟨res, ⟨.computed (isZero res), .force0, .force0, .computed (bitOf old 7)⟩⟩

/-- RR (rule R167). -/
def aluRr (cin : Bool) (old : Byte) : AluOut :=
  let res := (old >>> 1) ||| (boolByte cin <<< 7)
  ⟨res, ⟨.computed (isZero res), .force0, .force0, .computed (bitOf old 0)⟩⟩

/-- SLA: bit 0 receives 0 (rule R168; the spec's choice D21, log entry 6). -/
def aluSla (old : Byte) : AluOut :=
  let res := old <<< 1
  ⟨res, ⟨.computed (isZero res), .force0, .force0, .computed (bitOf old 7)⟩⟩

/-- SRA: bit 7 is kept (rule R169; the spec's choice D21, log entry 6). -/
def aluSra (old : Byte) : AluOut :=
  let res := (old >>> 1) ||| (old &&& 0x80)
  ⟨res, ⟨.computed (isZero res), .force0, .force0, .computed (bitOf old 0)⟩⟩

/-- SRL: bit 7 receives 0 (rule R170; the spec's choice D21, log entry 6). -/
def aluSrl (old : Byte) : AluOut :=
  let res := old >>> 1
  ⟨res, ⟨.computed (isZero res), .force0, .force0, .computed (bitOf old 0)⟩⟩

/-- SWAP: `{old[3:0], old[7:4]}` (rule R171). -/
def aluSwap (old : Byte) : AluOut :=
  let res : Byte := old.extractLsb' 0 4 ++ old.extractLsb' 4 4
  ⟨res, ⟨.computed (isZero res), .force0, .force0, .force0⟩⟩

/-- BIT (46_bit.md rule R180): no result. -/
def aluBit (n : Nat) (old : Byte) : FlagCommit :=
  ⟨.computed (!bitOf old n), .force0, .force1, .keep⟩

/-- SET (rule R181). -/
def aluSet (n : Nat) (old : Byte) : AluOut := ⟨old ||| ((1#8) <<< n), .keepAll⟩

/-- RESET (rule R182). -/
def aluReset (n : Nat) (old : Byte) : AluOut := ⟨old &&& ~~~((1#8) <<< n), .keepAll⟩

/-- CPL (47_complement.md rule R190). -/
def aluCpl (old : Byte) : AluOut := ⟨~~~old, ⟨.keep, .force1, .force1, .keep⟩⟩

end Sys2Proof.Machine
end

