-- ==== Sys2Proof/Machine/Arithmetic.lean ====
section
/-! DEFINITION. ADD, ADC, ADDHL, SUB, SBC, CP (41_arithmetic.md rules R110 to R116). -/

namespace Sys2Proof.Machine

/-- `ADD r` (rule R111). -/
def execAddR (r : Reg8) (s : State) : Host.Outcome State Fault Refusal :=
  accumulate (aluAdd s.a) (.target (.reg r)) s

/-- `ADD (HL)` (rule R111). -/
def execAddM (s : State) : Host.Outcome State Fault Refusal :=
  accumulate (aluAdd s.a) (.target .mhl) s

/-- `ADD #i` (rule R111; the immediate is unsigned, 30_encoding.md rule R65). -/
def execAddI (v : Byte) (s : State) : Host.Outcome State Fault Refusal :=
  accumulate (aluAdd s.a) (.imm v) s

/-- `ADC r` (rule R112). -/
def execAdcR (r : Reg8) (s : State) : Host.Outcome State Fault Refusal :=
  accumulate (aluAdc s.f.c s.a) (.target (.reg r)) s

/-- `ADC (HL)` (rule R112). -/
def execAdcM (s : State) : Host.Outcome State Fault Refusal :=
  accumulate (aluAdc s.f.c s.a) (.target .mhl) s

/-- `ADC #i` (rule R112; the immediate is unsigned, 30_encoding.md rule R65). -/
def execAdcI (v : Byte) (s : State) : Host.Outcome State Fault Refusal :=
  accumulate (aluAdc s.f.c s.a) (.imm v) s

/-- `ADDHL rr` (rule R113). -/
def execAddhlP (p : Reg16) (s : State) : Host.Outcome State Fault Refusal :=
  accumulate16 (aluAddHL (s.reg16 .hl)) p s

/-- `SUB r` (rule R114). -/
def execSubR (r : Reg8) (s : State) : Host.Outcome State Fault Refusal :=
  accumulate (aluSub s.a) (.target (.reg r)) s

/-- `SUB (HL)` (rule R114). -/
def execSubM (s : State) : Host.Outcome State Fault Refusal :=
  accumulate (aluSub s.a) (.target .mhl) s

/-- `SUB #i` (rule R114; the immediate is unsigned, 30_encoding.md rule R65). -/
def execSubI (v : Byte) (s : State) : Host.Outcome State Fault Refusal :=
  accumulate (aluSub s.a) (.imm v) s

/-- `SBC r` (rule R115). -/
def execSbcR (r : Reg8) (s : State) : Host.Outcome State Fault Refusal :=
  accumulate (aluSbc s.f.c s.a) (.target (.reg r)) s

/-- `SBC (HL)` (rule R115). -/
def execSbcM (s : State) : Host.Outcome State Fault Refusal :=
  accumulate (aluSbc s.f.c s.a) (.target .mhl) s

/-- `SBC #i` (rule R115; the immediate is unsigned, 30_encoding.md rule R65). -/
def execSbcI (v : Byte) (s : State) : Host.Outcome State Fault Refusal :=
  accumulate (aluSbc s.f.c s.a) (.imm v) s

/-- `CP r` (rule R116). -/
def execCpR (r : Reg8) (s : State) : Host.Outcome State Fault Refusal :=
  testOperand (aluCp s.a) (.target (.reg r)) s

/-- `CP (HL)` (rule R116). -/
def execCpM (s : State) : Host.Outcome State Fault Refusal :=
  testOperand (aluCp s.a) (.target .mhl) s

/-- `CP #i` (rule R116). -/
def execCpI (v : Byte) (s : State) : Host.Outcome State Fault Refusal :=
  testOperand (aluCp s.a) (.imm v) s

end Sys2Proof.Machine
end

