-- ==== Sys2Proof/Machine/Bit.lean ====
section
/-! DEFINITION. BIT, SET, RESET (46_bit.md rules R180 to R182). -/

namespace Sys2Proof.Machine

/-- `BIT b, r` (rule R180). -/
def execBitR (n : Nat) (r : Reg8) (s : State) : Host.Outcome State Fault Refusal :=
  testOperand (aluBit n) (.target (.reg r)) s

/-- `BIT b, (HL)` (rule R180). -/
def execBitM (n : Nat) (s : State) : Host.Outcome State Fault Refusal :=
  testOperand (aluBit n) (.target .mhl) s

/-- `SET b, r` (rule R181). -/
def execSetR (n : Nat) (r : Reg8) (s : State) : Host.Outcome State Fault Refusal :=
  modify8 (aluSet n) (.reg r) s

/-- `SET b, (HL)` (rule R181). -/
def execSetM (n : Nat) (s : State) : Host.Outcome State Fault Refusal :=
  modify8 (aluSet n) .mhl s

/-- `RESET b, r` (rule R182). -/
def execResetR (n : Nat) (r : Reg8) (s : State) : Host.Outcome State Fault Refusal :=
  modify8 (aluReset n) (.reg r) s

/-- `RESET b, (HL)` (rule R182). -/
def execResetM (n : Nat) (s : State) : Host.Outcome State Fault Refusal :=
  modify8 (aluReset n) .mhl s

end Sys2Proof.Machine
end

