-- ==== Sys2Proof/Machine/CarryFlag.lean ====
section
/-! DEFINITION. CCF, SCF (44_carry_flag.md rules R150, R151). -/

namespace Sys2Proof.Machine

/-- `CCF` (rule R150). -/
def execCcf (s : State) : Host.Outcome State Fault Refusal :=
  flagsOnly (aluCcf s.f.c) s

/-- `SCF` (rule R151). -/
def execScf (s : State) : Host.Outcome State Fault Refusal :=
  flagsOnly aluScf s

end Sys2Proof.Machine
end

