-- ==== Sys2Proof/Machine/Complement.lean ====
section
/-! DEFINITION. CPL (47_complement.md rule R190). -/

namespace Sys2Proof.Machine

/-- `CPL` (rule R190). -/
def execCpl (s : State) : Host.Outcome State Fault Refusal :=
  modifyA aluCpl s

end Sys2Proof.Machine
end

