-- ==== Sys2Proof/Machine/IncDec.lean ====
section
/-! DEFINITION. INC, DEC (43_inc_dec.md rules R140, R141). -/

namespace Sys2Proof.Machine

/-- `INC r` (rule R140). -/
def execIncR (r : Reg8) (s : State) : Host.Outcome State Fault Refusal :=
  modify8 aluInc (.reg r) s

/-- `INC (HL)` (rule R140). -/
def execIncM (s : State) : Host.Outcome State Fault Refusal :=
  modify8 aluInc .mhl s

/-- `INC rr` (rule R140): no flag changes. -/
def execIncP (p : Reg16) (s : State) : Host.Outcome State Fault Refusal :=
  modify16 aluInc16 p s

/-- `DEC r` (rule R141). -/
def execDecR (r : Reg8) (s : State) : Host.Outcome State Fault Refusal :=
  modify8 aluDec (.reg r) s

/-- `DEC (HL)` (rule R141). -/
def execDecM (s : State) : Host.Outcome State Fault Refusal :=
  modify8 aluDec .mhl s

/-- `DEC rr` (rule R141): no flag changes. -/
def execDecP (p : Reg16) (s : State) : Host.Outcome State Fault Refusal :=
  modify16 aluDec16 p s

end Sys2Proof.Machine
end

