-- ==== Sys2Proof/Machine/Logical.lean ====
section
/-! DEFINITION. AND, OR, XOR (42_logical.md rules R130 to R132). -/

namespace Sys2Proof.Machine

/-- `AND r` (rule R130). -/
def execAndR (r : Reg8) (s : State) : Host.Outcome State Fault Refusal :=
  accumulate (aluAnd s.a) (.target (.reg r)) s

/-- `AND (HL)` (rule R130). -/
def execAndM (s : State) : Host.Outcome State Fault Refusal :=
  accumulate (aluAnd s.a) (.target .mhl) s

/-- `AND #i` (rule R130; the immediate is unsigned, 30_encoding.md rule R65). -/
def execAndI (v : Byte) (s : State) : Host.Outcome State Fault Refusal :=
  accumulate (aluAnd s.a) (.imm v) s

/-- `OR r` (rule R131). -/
def execOrR (r : Reg8) (s : State) : Host.Outcome State Fault Refusal :=
  accumulate (aluOr s.a) (.target (.reg r)) s

/-- `OR (HL)` (rule R131). -/
def execOrM (s : State) : Host.Outcome State Fault Refusal :=
  accumulate (aluOr s.a) (.target .mhl) s

/-- `OR #i` (rule R131; the immediate is unsigned, 30_encoding.md rule R65). -/
def execOrI (v : Byte) (s : State) : Host.Outcome State Fault Refusal :=
  accumulate (aluOr s.a) (.imm v) s

/-- `XOR r` (rule R132). -/
def execXorR (r : Reg8) (s : State) : Host.Outcome State Fault Refusal :=
  accumulate (aluXor s.a) (.target (.reg r)) s

/-- `XOR (HL)` (rule R132). -/
def execXorM (s : State) : Host.Outcome State Fault Refusal :=
  accumulate (aluXor s.a) (.target .mhl) s

/-- `XOR #i` (rule R132; the immediate is unsigned, 30_encoding.md rule R65). -/
def execXorI (v : Byte) (s : State) : Host.Outcome State Fault Refusal :=
  accumulate (aluXor s.a) (.imm v) s

end Sys2Proof.Machine
end

