-- ==== Sys2Proof/Machine/RotateShift.lean ====
section
/-! DEFINITION. The accumulator rotates RRA, RLA, RRCA, RLCA and the indexed RLC, RRC, RL, RR, SLA, SRA, SRL, SWAP
(45_rotate_shift.md rules R160 to R171). -/

namespace Sys2Proof.Machine

/-- `RRA` (rule R160). -/
def execRra (s : State) : Host.Outcome State Fault Refusal :=
  modifyA (aluRra s.f.c) s

/-- `RLA` (rule R161). -/
def execRla (s : State) : Host.Outcome State Fault Refusal :=
  modifyA (aluRla s.f.c) s

/-- `RRCA` (rule R162). -/
def execRrca (s : State) : Host.Outcome State Fault Refusal :=
  modifyA aluRrca s

/-- `RLCA` (rule R163). -/
def execRlca (s : State) : Host.Outcome State Fault Refusal :=
  modifyA aluRlca s

/-- `RLC r` (rule R164). -/
def execRlcR (r : Reg8) (s : State) : Host.Outcome State Fault Refusal :=
  modify8 aluRlc (.reg r) s

/-- `RLC (HL)` (rule R164). -/
def execRlcM (s : State) : Host.Outcome State Fault Refusal :=
  modify8 aluRlc .mhl s

/-- `RRC r` (rule R165). -/
def execRrcR (r : Reg8) (s : State) : Host.Outcome State Fault Refusal :=
  modify8 aluRrc (.reg r) s

/-- `RRC (HL)` (rule R165). -/
def execRrcM (s : State) : Host.Outcome State Fault Refusal :=
  modify8 aluRrc .mhl s

/-- `RL r` (rule R166). -/
def execRlR (r : Reg8) (s : State) : Host.Outcome State Fault Refusal :=
  modify8 (aluRl s.f.c) (.reg r) s

/-- `RL (HL)` (rule R166). -/
def execRlM (s : State) : Host.Outcome State Fault Refusal :=
  modify8 (aluRl s.f.c) .mhl s

/-- `RR r` (rule R167). -/
def execRrR (r : Reg8) (s : State) : Host.Outcome State Fault Refusal :=
  modify8 (aluRr s.f.c) (.reg r) s

/-- `RR (HL)` (rule R167). -/
def execRrM (s : State) : Host.Outcome State Fault Refusal :=
  modify8 (aluRr s.f.c) .mhl s

/-- `SLA r` (rule R168). -/
def execSlaR (r : Reg8) (s : State) : Host.Outcome State Fault Refusal :=
  modify8 aluSla (.reg r) s

/-- `SLA (HL)` (rule R168). -/
def execSlaM (s : State) : Host.Outcome State Fault Refusal :=
  modify8 aluSla .mhl s

/-- `SRA r` (rule R169). -/
def execSraR (r : Reg8) (s : State) : Host.Outcome State Fault Refusal :=
  modify8 aluSra (.reg r) s

/-- `SRA (HL)` (rule R169). -/
def execSraM (s : State) : Host.Outcome State Fault Refusal :=
  modify8 aluSra .mhl s

/-- `SRL r` (rule R170). -/
def execSrlR (r : Reg8) (s : State) : Host.Outcome State Fault Refusal :=
  modify8 aluSrl (.reg r) s

/-- `SRL (HL)` (rule R170). -/
def execSrlM (s : State) : Host.Outcome State Fault Refusal :=
  modify8 aluSrl .mhl s

/-- `SWAP r` (rule R171). -/
def execSwapR (r : Reg8) (s : State) : Host.Outcome State Fault Refusal :=
  modify8 aluSwap (.reg r) s

/-- `SWAP (HL)` (rule R171). -/
def execSwapM (s : State) : Host.Outcome State Fault Refusal :=
  modify8 aluSwap .mhl s

end Sys2Proof.Machine
end

