-- ==== Sys2Proof/Machine/Dispatch.lean ====
section
/-! DEFINITION. Dispatch: one arm for each instruction (40_execute.md rule R93). -/

namespace Sys2Proof.Machine

def exec (i : Instr) (s : State) : Host.Outcome State Fault Refusal :=
  match i with
  | .addR r => Sys2Proof.Machine.execAddR r s
  | .addM => Sys2Proof.Machine.execAddM s
  | .addI v => Sys2Proof.Machine.execAddI v s
  | .adcR r => Sys2Proof.Machine.execAdcR r s
  | .adcM => Sys2Proof.Machine.execAdcM s
  | .adcI v => Sys2Proof.Machine.execAdcI v s
  | .addhlP p => Sys2Proof.Machine.execAddhlP p s
  | .subR r => Sys2Proof.Machine.execSubR r s
  | .subM => Sys2Proof.Machine.execSubM s
  | .subI v => Sys2Proof.Machine.execSubI v s
  | .sbcR r => Sys2Proof.Machine.execSbcR r s
  | .sbcM => Sys2Proof.Machine.execSbcM s
  | .sbcI v => Sys2Proof.Machine.execSbcI v s
  | .cpR r => Sys2Proof.Machine.execCpR r s
  | .cpM => Sys2Proof.Machine.execCpM s
  | .cpI v => Sys2Proof.Machine.execCpI v s
  | .andR r => Sys2Proof.Machine.execAndR r s
  | .andM => Sys2Proof.Machine.execAndM s
  | .andI v => Sys2Proof.Machine.execAndI v s
  | .orR r => Sys2Proof.Machine.execOrR r s
  | .orM => Sys2Proof.Machine.execOrM s
  | .orI v => Sys2Proof.Machine.execOrI v s
  | .xorR r => Sys2Proof.Machine.execXorR r s
  | .xorM => Sys2Proof.Machine.execXorM s
  | .xorI v => Sys2Proof.Machine.execXorI v s
  | .incR r => Sys2Proof.Machine.execIncR r s
  | .incM => Sys2Proof.Machine.execIncM s
  | .incP p => Sys2Proof.Machine.execIncP p s
  | .decR r => Sys2Proof.Machine.execDecR r s
  | .decM => Sys2Proof.Machine.execDecM s
  | .decP p => Sys2Proof.Machine.execDecP p s
  | .ccf => Sys2Proof.Machine.execCcf s
  | .scf => Sys2Proof.Machine.execScf s
  | .rra => Sys2Proof.Machine.execRra s
  | .rla => Sys2Proof.Machine.execRla s
  | .rrca => Sys2Proof.Machine.execRrca s
  | .rlca => Sys2Proof.Machine.execRlca s
  | .rlcR r => Sys2Proof.Machine.execRlcR r s
  | .rlcM => Sys2Proof.Machine.execRlcM s
  | .rrcR r => Sys2Proof.Machine.execRrcR r s
  | .rrcM => Sys2Proof.Machine.execRrcM s
  | .rlR r => Sys2Proof.Machine.execRlR r s
  | .rlM => Sys2Proof.Machine.execRlM s
  | .rrR r => Sys2Proof.Machine.execRrR r s
  | .rrM => Sys2Proof.Machine.execRrM s
  | .slaR r => Sys2Proof.Machine.execSlaR r s
  | .slaM => Sys2Proof.Machine.execSlaM s
  | .sraR r => Sys2Proof.Machine.execSraR r s
  | .sraM => Sys2Proof.Machine.execSraM s
  | .srlR r => Sys2Proof.Machine.execSrlR r s
  | .srlM => Sys2Proof.Machine.execSrlM s
  | .swapR r => Sys2Proof.Machine.execSwapR r s
  | .swapM => Sys2Proof.Machine.execSwapM s
  | .bitR n r => Sys2Proof.Machine.execBitR n r s
  | .bitM n => Sys2Proof.Machine.execBitM n s
  | .setR n r => Sys2Proof.Machine.execSetR n r s
  | .setM n => Sys2Proof.Machine.execSetM n s
  | .resetR n r => Sys2Proof.Machine.execResetR n r s
  | .resetM n => Sys2Proof.Machine.execResetM n s
  | .cpl => Sys2Proof.Machine.execCpl s

end Sys2Proof.Machine
end

