-- ==== Sys2Proof/Machine/Ports.lean ====
section
/-! DEFINITION. The output ports of CORE, read from the state after a step (40_execute.md rule R91; the cause code of
60_exceptions.md rule R200). -/

namespace Sys2Proof.Machine

/-- `ack`: "the transaction committed" (rule R91). -/
def State.ackPort (s : State) : Bool := decide (s.out.outcome = .ok)

/-- `fault`: the latch is faulted (rule R91). -/
def State.faultPort (s : State) : Bool :=
  match s.fault with
  | .none => false
  | .faulted _ _ => true

/-- `fault_kind`: the KIND field of the malformed word; the spec gives it no value while the latch is none (log entry 10). -/
def State.faultKindPort (s : State) : Option (BitVec 8) :=
  match s.fault with
  | .none => none
  | .faulted kind _ => some kind

/-- `fault_tgt`: the TGT field of the malformed word; the spec gives it no value while the latch is none (log entry 10). -/
def State.faultTgtPort (s : State) : Option (BitVec 4) :=
  match s.fault with
  | .none => none
  | .faulted _ tgt => some tgt

/-- "The fault's cause code is 1, the only code" (rule R200). -/
def State.causeCode (s : State) : Option Nat :=
  match s.fault with
  | .none => none
  | .faulted _ _ => some 1

/-- The 96-bit `state` view: A, B, C, D, E, H, L, `to_byte(F)`, PC, SP from bit 95 down (rule R91). -/
def State.stateView (s : State) : BitVec 96 :=
  s.a ++ s.b ++ s.c ++ s.d ++ s.e ++ s.h ++ s.l ++ s.f.toByte ++ s.pc ++ s.sp

/-- `bus_addr`, with the direction, of each access of the last step (rule R91). -/
def BusAccess.addr : BusAccess → Word16
  | .read addr _ => addr
  | .write addr _ => addr

end Sys2Proof.Machine
end

