-- ==== Sys2Proof/Machine/Transact.lean ====
section
/-! DEFINITION. One transaction (40_execute.md rules R90, R92, R93), and how a step takes what the harness drives on the
ports (rule R91; 70_reset_and_hazards.md rules R220, R227; 60_exceptions.md rule R215). -/

namespace Sys2Proof.Machine

/-- `ack`: the instruction committed (rule R91). -/
def acknowledge : Host.Outcome State Fault Refusal → Host.Outcome State Fault Refusal
  | .next t => .next { t with out := { t.out with outcome := .ok } }
  | .fault r => .fault r
  | .refused r => .refused r

/-- One transaction on the word `w` (rule R92). The latch is looked at before decoding (60_exceptions.md rule R206). The
outcomes `fault` and `refused` of rule R92 are NEXT states with that outcome on the outputs (log entries 2 and 3). -/
def transact (w : DIW) (s : State) : Host.Outcome State Fault Refusal :=
  match s.fault with
  | .faulted _ _ => .next s.refuseRequest
  | .none =>
    match decode w with
    | .malformed _ => .next (s.takeMalformed (kindField w) (tgtField w))
    | .ok i => acknowledge (exec i s)

/-- The step takes the request it runs off the inputs, with nothing on the outputs yet. -/
def State.beginStep (s : State) (rest : List Request) : State := { s with inputs := rest, out := ⟨.idle, []⟩ }

/-- What one request does: reset wins over `req` (rule R227); with neither, CORE is idle and holds its state (rule R215). -/
def serve (q : Request) (s : State) : Host.Outcome State Fault Refusal :=
  if q.rst then .next s.applyReset
  else if q.req then transact q.diw s
  else .next s

/-- One step: the next request, or idle where the harness drives nothing (70_reset_and_hazards.md rule R221). -/
def stepPorts (s : State) : Host.Outcome State Fault Refusal :=
  match s.inputs with
  | [] => .next (s.beginStep [])
  | q :: rest => serve q (s.beginStep rest)

/-- The request that sends the word `w`. -/
def execRequest (w : DIW) : Request := ⟨false, true, w⟩

/-- The request that asserts `rst` alone. -/
def resetRequest : Request := ⟨true, false, 0⟩

/-- The state with the word `w` as the very next thing the harness sends. -/
def State.send (s : State) (w : DIW) : State := { s with inputs := execRequest w :: s.inputs }

end Sys2Proof.Machine
end

