-- ==== Sys2Proof/Machine/Step.lean ====
section
/-! DEFINITION. The step of the machine (40_execute.md rule R92), and the word the harness sends next. -/

namespace Sys2Proof.Machine

/-- One step of the machine: one request of the harness, or idle. -/
def step : State → Host.Outcome State Fault Refusal := fun s => stepPorts s

/-- The state in which the very next step runs the table word `w` of `nbits` bits: CORE does not fetch (20_memory.md rule
R54), the harness sends the word on `diw` with `req`. Nothing else changes (log entry 1). -/
def State.withFetchWord (s : State) (nbits w : Nat) : State := s.send (BitVec.ofNat 24 (w % 2 ^ nbits))

end Sys2Proof.Machine
end

