-- ==== Sys2Proof/Safety.lean ====
section
/-! DEFINITION. The terms the claims use: a safe run, the spec's whole-machine tables (destinations, flags, bus accesses),
the invariant, and the forms of each kind with the words the spec writes out for them. None of it is used by the machine. -/

namespace Sys2Proof

/-! ## The forms of a kind, by operand -/

/-- The forms of ADD. -/
def Instr.addOf : Operand8 → Instr
  | .target (.reg r) => .addR r
  | .target .mhl => .addM
  | .imm v => .addI v

/-- The forms of ADC. -/
def Instr.adcOf : Operand8 → Instr
  | .target (.reg r) => .adcR r
  | .target .mhl => .adcM
  | .imm v => .adcI v

/-- The forms of SUB. -/
def Instr.subOf : Operand8 → Instr
  | .target (.reg r) => .subR r
  | .target .mhl => .subM
  | .imm v => .subI v

/-- The forms of SBC. -/
def Instr.sbcOf : Operand8 → Instr
  | .target (.reg r) => .sbcR r
  | .target .mhl => .sbcM
  | .imm v => .sbcI v

/-- The forms of CP. -/
def Instr.cpOf : Operand8 → Instr
  | .target (.reg r) => .cpR r
  | .target .mhl => .cpM
  | .imm v => .cpI v

/-- The forms of AND. -/
def Instr.andOf : Operand8 → Instr
  | .target (.reg r) => .andR r
  | .target .mhl => .andM
  | .imm v => .andI v

/-- The forms of OR. -/
def Instr.orOf : Operand8 → Instr
  | .target (.reg r) => .orR r
  | .target .mhl => .orM
  | .imm v => .orI v

/-- The forms of XOR. -/
def Instr.xorOf : Operand8 → Instr
  | .target (.reg r) => .xorR r
  | .target .mhl => .xorM
  | .imm v => .xorI v

/-- The 8-bit forms of INC. -/
def Instr.incOf : Target8 → Instr
  | .reg r => .incR r
  | .mhl => .incM

/-- The 8-bit forms of DEC. -/
def Instr.decOf : Target8 → Instr
  | .reg r => .decR r
  | .mhl => .decM

/-- The forms of RLC. -/
def Instr.rlcOf : Target8 → Instr
  | .reg r => .rlcR r
  | .mhl => .rlcM

/-- The forms of RRC. -/
def Instr.rrcOf : Target8 → Instr
  | .reg r => .rrcR r
  | .mhl => .rrcM

/-- The forms of RL. -/
def Instr.rlOf : Target8 → Instr
  | .reg r => .rlR r
  | .mhl => .rlM

/-- The forms of RR. -/
def Instr.rrOf : Target8 → Instr
  | .reg r => .rrR r
  | .mhl => .rrM

/-- The forms of SLA. -/
def Instr.slaOf : Target8 → Instr
  | .reg r => .slaR r
  | .mhl => .slaM

/-- The forms of SRA. -/
def Instr.sraOf : Target8 → Instr
  | .reg r => .sraR r
  | .mhl => .sraM

/-- The forms of SRL. -/
def Instr.srlOf : Target8 → Instr
  | .reg r => .srlR r
  | .mhl => .srlM

/-- The forms of SWAP. -/
def Instr.swapOf : Target8 → Instr
  | .reg r => .swapR r
  | .mhl => .swapM

/-- The forms of BIT. -/
def Instr.bitOf (n : Nat) : Target8 → Instr
  | .reg r => .bitR n r
  | .mhl => .bitM n

/-- The forms of SET. -/
def Instr.setOf (n : Nat) : Target8 → Instr
  | .reg r => .setR n r
  | .mhl => .setM n

/-- The forms of RESET. -/
def Instr.resetOf (n : Nat) : Target8 → Instr
  | .reg r => .resetR n r
  | .mhl => .resetM n

/-! ## The words as the spec writes them in each rule's Encoding line -/

/-- The digit the spec writes for an 8-bit target: B=0 C=1 D=2 E=3 H=4 L=5 (HL)=6 A=7 (30_encoding.md rule R63). -/
def targetDigit : Target8 → BitVec 4
  | .reg .b => 0
  | .reg .c => 1
  | .reg .d => 2
  | .reg .e => 3
  | .reg .h => 4
  | .reg .l => 5
  | .mhl => 6
  | .reg .a => 7

/-- The digit for a 16-bit target: BC=8 DE=9 HL=A SP=B (rule R63). -/
def pairDigit : Reg16 → BitVec 4
  | .bc => 0x8
  | .de => 0x9
  | .hl => 0xA
  | .sp => 0xB

/-- `0xkk0t00`: formats F_R8 and F_MHL. -/
def targetWord (kk : BitVec 8) (t : Target8) : DIW := kk ++ 0x0#4 ++ targetDigit t ++ 0x00#8

/-- `0xkk0t00`, or `0xkk4Cii` for an immediate: formats F_R8, F_MHL, F_IMM8. -/
def operandWord (kk : BitVec 8) : Operand8 → DIW
  | .target t => targetWord kk t
  | .imm v => kk ++ 0x4C#8 ++ v

/-- `0xkk0(8+p)00`: format F_RR. -/
def pairWord (kk : BitVec 8) (p : Reg16) : DIW := kk ++ 0x0#4 ++ pairDigit p ++ 0x00#8

/-- `0xkk8t0n`: formats F_BIT_R8 and F_BIT_MHL. -/
def bitWord (kk : BitVec 8) (t : Target8) (n : Nat) : DIW := kk ++ 0x8#4 ++ targetDigit t ++ 0x0#4 ++ BitVec.ofNat 4 n

end Sys2Proof

namespace Sys2Proof.Machine

/-! ## Operands and results in the spec's terms -/

/-- The value of an 8-bit operand before the instruction (40_execute.md rule R94). -/
def State.operandValue (s : State) : Operand8 → Byte
  | .target (.reg r) => s.reg8 r
  | .target .mhl => s.mem.read (s.h.toNat * 256 + s.l.toNat)
  | .imm v => v

/-- The value of a 16-bit operand as an integer, high register first (10_state.md rule R22; 40_execute.md rule R95). -/
def State.pairValue (s : State) : Reg16 → Nat
  | .bc => s.b.toNat * 256 + s.c.toNat
  | .de => s.d.toNat * 256 + s.e.toNat
  | .hl => s.h.toNat * 256 + s.l.toNat
  | .sp => s.sp.toNat

/-- The state in which a 16-bit target holds the integer `v` truncated (rule R23), and nothing else has changed. -/
def State.withPair (s : State) (v : Nat) : Reg16 → State
  | .bc => { s with b := BitVec.ofNat 8 (v / 256), c := BitVec.ofNat 8 v }
  | .de => { s with d := BitVec.ofNat 8 (v / 256), e := BitVec.ofNat 8 v }
  | .hl => { s with h := BitVec.ofNat 8 (v / 256), l := BitVec.ofNat 8 v }
  | .sp => { s with sp := BitVec.ofNat 16 v }

/-- The bus access of reading an operand: one read at `x[HL]` for `(HL)`, none otherwise (20_memory.md rule R43). -/
def State.operandAccess (s : State) : Operand8 → List BusAccess
  | .target (.reg _) => []
  | .target .mhl => [.read (s.h ++ s.l) (s.mem.read (s.h.toNat * 256 + s.l.toNat))]
  | .imm _ => []

/-- The state with more accesses on the bus, and nothing else changed. -/
def State.withBus (s : State) (accesses : List BusAccess) : State :=
  { s with out := { s.out with bus := s.out.bus ++ accesses } }

/-- The state after a read-modify-write of an 8-bit target, but for the flags: the register holds `v`; or the byte at
`x[HL]` has been read and then `v` written there (rules R43, R96). -/
def State.withTarget (s : State) (v : Byte) : Target8 → State
  | .reg r => s.setReg8 r v
  | .mhl =>
    { s.withBus (s.operandAccess (.target .mhl) ++ [.write (s.h ++ s.l) v]) with
      mem := s.mem.write (s.h.toNat * 256 + s.l.toNat) v }

/-! ## The spec's whole-machine tables -/

/-- The destinations of 40_execute.md rule R97. -/
inductive Dest
  | nothing
  | target (t : Target8)
  | pair (p : Reg16)
  deriving DecidableEq, Repr

/-- Rule R97: the destination of each instruction. -/
def destination : Instr → Dest
  | .addR _ | .addM | .addI _ | .adcR _ | .adcM | .adcI _ | .subR _ | .subM | .subI _ | .sbcR _ | .sbcM | .sbcI _
  | .andR _ | .andM | .andI _ | .orR _ | .orM | .orI _ | .xorR _ | .xorM | .xorI _ => .target (.reg .a)
  | .cpR _ | .cpM | .cpI _ => .nothing
  | .addhlP _ => .pair .hl
  | .incR r | .decR r => .target (.reg r)
  | .incM | .decM => .target .mhl
  | .incP p | .decP p => .pair p
  | .rra | .rla | .rrca | .rlca | .cpl => .target (.reg .a)
  | .ccf | .scf => .nothing
  | .rlcR r | .rrcR r | .rlR r | .rrR r | .slaR r | .sraR r | .srlR r | .swapR r => .target (.reg r)
  | .rlcM | .rrcM | .rlM | .rrM | .slaM | .sraM | .srlM | .swapM => .target .mhl
  | .bitR _ _ | .bitM _ => .nothing
  | .setR _ r | .resetR _ r => .target (.reg r)
  | .setM _ | .resetM _ => .target .mhl

/-- Whether a destination holds the 8-bit register `r`. -/
def Dest.holds8 : Dest → Reg8 → Bool
  | .nothing, _ => false
  | .target (.reg r), r' => r == r'
  | .target .mhl, _ => false
  | .pair .bc, r' => r' == .b || r' == .c
  | .pair .de, r' => r' == .d || r' == .e
  | .pair .hl, r' => r' == .h || r' == .l
  | .pair .sp, _ => false

/-- What the flag table of 10_state.md section 2 says of one flag: `-`, `0`, `1`, or computed (`r`, `~C`). -/
inductive FlagEntry
  | kept
  | zero
  | one
  | computed
  deriving DecidableEq, Repr

/-- A row of the flag table. -/
structure FlagRow where
  z : FlagEntry
  n : FlagEntry
  h : FlagEntry
  c : FlagEntry
  deriving DecidableEq, Repr

/-- The flag table of 10_state.md section 2. -/
def flagTable : Instr → FlagRow
  | .addR _ | .addM | .addI _ | .adcR _ | .adcM | .adcI _ => ⟨.computed, .zero, .computed, .computed⟩
  | .addhlP _ => ⟨.kept, .zero, .computed, .computed⟩
  | .subR _ | .subM | .subI _ | .sbcR _ | .sbcM | .sbcI _ | .cpR _ | .cpM | .cpI _ =>
    ⟨.computed, .one, .computed, .computed⟩
  | .andR _ | .andM | .andI _ => ⟨.computed, .zero, .one, .zero⟩
  | .orR _ | .orM | .orI _ | .xorR _ | .xorM | .xorI _ => ⟨.computed, .zero, .zero, .zero⟩
  | .incR _ | .incM => ⟨.computed, .zero, .computed, .kept⟩
  | .decR _ | .decM => ⟨.computed, .one, .computed, .kept⟩
  | .incP _ | .decP _ => ⟨.kept, .kept, .kept, .kept⟩
  | .ccf => ⟨.kept, .zero, .zero, .computed⟩
  | .scf => ⟨.kept, .zero, .zero, .one⟩
  | .rra | .rla | .rrca | .rlca => ⟨.zero, .zero, .zero, .computed⟩
  | .rlcR _ | .rlcM | .rrcR _ | .rrcM | .rlR _ | .rlM | .rrR _ | .rrM
  | .slaR _ | .slaM | .sraR _ | .sraM | .srlR _ | .srlM => ⟨.computed, .zero, .zero, .computed⟩
  | .swapR _ | .swapM => ⟨.computed, .zero, .zero, .zero⟩
  | .bitR _ _ | .bitM _ => ⟨.computed, .zero, .one, .kept⟩
  | .setR _ _ | .setM _ | .resetR _ _ | .resetM _ => ⟨.kept, .kept, .kept, .kept⟩
  | .cpl => ⟨.kept, .one, .one, .kept⟩

/-- A flag went from `old` to `new` as its table entry says. -/
def FlagEntry.allows (x : FlagEntry) (old new : Bool) : Prop :=
  match x with
  | .kept => new = old
  | .zero => new = false
  | .one => new = true
  | .computed => True

/-- The accesses of 20_memory.md rule R43. -/
inductive AccessClass
  | noAccess
  | oneRead
  | readThenWrite
  deriving DecidableEq, Repr

/-- Rule R43: the accesses of each instruction. -/
def accessTable : Instr → AccessClass
  | .addM | .adcM | .subM | .sbcM | .cpM | .andM | .orM | .xorM => .oneRead
  | .bitM _ => .oneRead
  | .incM | .decM => .readThenWrite
  | .rlcM | .rrcM | .rlM | .rrM | .slaM | .sraM | .srlM | .swapM => .readThenWrite
  | .setM _ | .resetM _ => .readThenWrite
  | .addR _ | .addI _ | .adcR _ | .adcI _ | .subR _ | .subI _ | .sbcR _ | .sbcI _ | .cpR _ | .cpI _
  | .andR _ | .andI _ | .orR _ | .orI _ | .xorR _ | .xorI _ | .addhlP _ | .incR _ | .incP _ | .decR _ | .decP _
  | .ccf | .scf | .rra | .rla | .rrca | .rlca | .cpl
  | .rlcR _ | .rrcR _ | .rlR _ | .rrR _ | .slaR _ | .sraR _ | .srlR _ | .swapR _
  | .bitR _ _ | .setR _ _ | .resetR _ _ => .noAccess

/-! ## Safe runs and the invariant -/

/-- CORE accepts instructions: no fault has come since reset (10_state.md rule R30). A faulted state "is never a good final
state" (93_implementation_defined.md I6). -/
def State.running (s : State) : Bool := decide (s.fault = .none)

/-- The accesses one transaction can make: none, one read, or a read and then a write at the same address (20_memory.md
rule R43). -/
def busShape : List BusAccess → Bool
  | [] => true
  | [.read _ _] => true
  | [.read x _, .write y _] => x == y
  | _ => false

/-- The outputs of the last step agree with the latch: after `ok` and after a reset the latch is none; after a fault it
holds what the outputs report; a refusal needs it faulted; only `ok` makes bus accesses (60_exceptions.md rules R200, R201,
R203; 70_reset_and_hazards.md rules R220, R227). -/
def State.outputsAgree (s : State) : Bool :=
  match s.out.outcome with
  | .idle => s.out.bus == []
  | .ok => s.running && busShape s.out.bus
  | .fault kind tgt => s.fault == .faulted kind tgt && s.out.bus == []
  | .refused => !s.running && s.out.bus == []
  | .reset => s.running && s.out.bus == []

/-- The invariant every step keeps: memory canonical, PC 0x0000 (70_reset_and_hazards.md rule R222: no other PC is
reachable), outputs in agreement with the latch. -/
def State.Inv (s : State) : Prop :=
  s.mem.wf = true ∧ s.pc = 0 ∧ s.outputsAgree = true

/-- `n` steps of the machine, as the host runs it. -/
def runSteps (n : Nat) (s : State) : Host.Outcome State Fault Refusal := Sys2Proof.core.run n s

/-- The machine sent the words `ws` in order, one a step (95_test_vectors.md section 3), and nothing after them. -/
def runWords (ws : List DIW) (s : State) : Host.Outcome State Fault Refusal :=
  runSteps ws.length { s with inputs := ws.map execRequest }

end Sys2Proof.Machine
end

