-- ==== Sys2Proof/Certificates/Slice0/Obligations.lean ====
section
/-! DEFINITION. The statements for the provers. Each formalises rules of spec/ or a fact the spec's sections give; none is
about a program. -/

open Sys2Proof Sys2Proof.Machine

/-! ## Encoding (30_encoding.md) -/

/-- One word of each format, and some malformed ones, written out from 30_encoding.md section 4 and 95_test_vectors.md
(W3, V2, V3, V14, V51, V53, V98, V99, V104, V110, V114, V115, V117, V122, V131). -/
def Obligations.SpecWordsDecodeAsWritten : Prop :=
  decode 0x014CC6 = .ok (.addI 0xC6) ∧ decode 0x010700 = .ok (.addR .a) ∧ decode 0x010600 = .ok .addM ∧
  decode 0x030800 = .ok (.addhlP .bc) ∧ decode 0x0A0A00 = .ok (.incP .hl) ∧ decode 0x0B0700 = .ok (.decR .a) ∧
  decode 0x190600 = .ok .swapM ∧ decode 0x1A8007 = .ok (.bitR 7 .b) ∧ decode 0x1B8607 = .ok (.setM 7) ∧
  decode 0x1D0C00 = .ok .cpl ∧ (decode 0x000000).instr? = none ∧ (decode 0x010C00).instr? = none ∧
  (decode 0x010D00).instr? = none ∧ (decode 0x011000).instr? = none ∧ (decode 0x030600).instr? = none ∧
  (decode 0x1A8008).instr? = none

/-- Decoding the word of a well-formed instruction gives it back, every operand at every value. -/
def Obligations.DecodeOfEncodeIsTheInstruction : Prop :=
  ∀ i : Instr, i.wellFormed = true → decode (encode i) = .ok i

/-- Each word has one meaning: a word that decodes is the word of the instruction it decodes to, which is well formed. -/
def Obligations.EncodeOfDecodeIsTheWord : Prop :=
  ∀ (w : DIW) (i : Instr), decode w = .ok i → i.wellFormed = true ∧ encode i = w

/-- The decoder accepts exactly the words of rule R69, for all 2^24 words. -/
def Obligations.DecodeAcceptsExactlyWellFormedWords : Prop :=
  ∀ w : DIW, (∃ i, decode w = .ok i) ↔ wfWord w = true

/-- A descriptor is legal exactly when its word is well formed (a bit index above 255 has no word of its own). -/
def Obligations.DescriptorLegalExactlyWhenItsWordIs : Prop :=
  ∀ d : Descriptor, (∀ n, d.payload = .bitIndex n → n < 256) → (d.legal = true ↔ wfWord d.word = true)

/-- A well-formed word selects exactly one row of the opcode map, the row of the kind it decodes to; any other word selects
none. (30_encoding.md rule R70, which the spec marks "derived: from rule R69 and the opcode map".) -/
def Obligations.WellFormedWordSelectsExactlyOneRow : Prop :=
  ∀ w : DIW,
    (wfWord w = true → ∃ row i, decode w = .ok i ∧ opcodeMap.filter (·.selectedBy w) = [row] ∧
      row.kind = i.descriptor.kind) ∧
    (wfWord w = false → opcodeMap.filter (·.selectedBy w) = [])

/-! ## Registers, flags byte, memory, reset (10_state.md, 20_memory.md, 70_reset_and_hazards.md) -/

/-- Rules R22, R23: the pair views and the pair write; then the round trips of rule R24 (its sentence on AF is about which
pairs exist: `Reg16` has none). -/
def Obligations.PairViewsReadAndWriteTheirRegisters : Prop :=
  (∀ s : State, (s.reg16 .bc).toNat = s.b.toNat * 256 + s.c.toNat ∧
    (s.reg16 .de).toNat = s.d.toNat * 256 + s.e.toNat ∧ (s.reg16 .hl).toNat = s.h.toNat * 256 + s.l.toNat) ∧
  (∀ (s : State) (v : Word16),
    s.setReg16 .bc v = { s with b := BitVec.ofNat 8 (v.toNat / 256), c := BitVec.ofNat 8 (v.toNat % 256) } ∧
    s.setReg16 .de v = { s with d := BitVec.ofNat 8 (v.toNat / 256), e := BitVec.ofNat 8 (v.toNat % 256) } ∧
    s.setReg16 .hl v = { s with h := BitVec.ofNat 8 (v.toNat / 256), l := BitVec.ofNat 8 (v.toNat % 256) }) ∧
  (∀ (s : State) (p : Reg16) (v : Word16), (s.setReg16 p v).reg16 p = v) ∧
  (∀ (s : State) (hi lo : Byte),
    let v := BitVec.ofNat 16 (hi.toNat * 256 + lo.toNat)
    (s.setReg16 .bc v).b = hi ∧ (s.setReg16 .bc v).c = lo ∧ (s.setReg16 .de v).d = hi ∧ (s.setReg16 .de v).e = lo ∧
    (s.setReg16 .hl v).h = hi ∧ (s.setReg16 .hl v).l = lo)

/-- Rules R26, R27: the flags encoder and the flags decoder. -/
def Obligations.FlagsByteEncoderAndDecoder : Prop :=
  (∀ f : Flags, f.toByte.toNat = 128 * f.z.toNat + 64 * f.n.toNat + 32 * f.h.toNat + 16 * f.c.toNat) ∧
  (∀ v : Byte, Flags.fromByte v = ⟨v.getLsbD 7, v.getLsbD 6, v.getLsbD 5, v.getLsbD 4⟩)

/-- The laws of 10_state.md rule R28; the spec marks the last one "derived: from rule R26 and rule R27". -/
def Obligations.FlagsByteRoundTrips : Prop :=
  (∀ f : Flags, Flags.fromByte f.toByte = f ∧ f.toByte &&& 0x0F = 0) ∧
  (∀ v : Byte, (Flags.fromByte v).toByte = v &&& 0xF0)

/-- The packing of the 96-bit `state` view, from bit 95 down (40_execute.md rule R91). -/
def Obligations.StateViewPacksTheRegisters : Prop :=
  ∀ s : State,
    s.stateView.extractLsb' 88 8 = s.a ∧ s.stateView.extractLsb' 80 8 = s.b ∧ s.stateView.extractLsb' 72 8 = s.c ∧
    s.stateView.extractLsb' 64 8 = s.d ∧ s.stateView.extractLsb' 56 8 = s.e ∧ s.stateView.extractLsb' 48 8 = s.h ∧
    s.stateView.extractLsb' 40 8 = s.l ∧ s.stateView.extractLsb' 32 8 = s.f.toByte ∧
    s.stateView.extractLsb' 16 16 = s.pc ∧ s.stateView.extractLsb' 0 16 = s.sp

/-- Rule R41: a bus read returns `mem(addr)` and changes nothing; a bus write sets the byte at its address and no other (the
record of the access on `out` is the model's own, log entry 5). On canonical memories, the only ones a run holds (StepKeepsTheInvariant). -/
def Obligations.MemoryReadsBackTheLatestWrite : Prop :=
  (∀ (m : Memory) (addr addr' : Nat) (v : Byte), m.wf = true →
    (m.write addr v).read addr' = if addr' = addr then v else m.read addr') ∧
  (∀ s : State, s.busReadHL.1 = s.mem.read (s.h.toNat * 256 + s.l.toNat) ∧
    s.busReadHL.2 = { s with out := s.busReadHL.2.out }) ∧
  (∀ (s : State) (v : Byte), s.mem.wf = true →
    s.busWriteHL v = { s with mem := (s.busWriteHL v).mem, out := (s.busWriteHL v).out } ∧
    ∀ addr, (s.busWriteHL v).mem.read addr = if addr = s.h.toNat * 256 + s.l.toNat then v else s.mem.read addr)

/-- Two canonical memories that read the same everywhere are the same list: equal memories are equal data. -/
def Obligations.CanonicalMemoriesAreEqualWhenTheyReadEqual : Prop :=
  ∀ m m' : Memory, m.wf = true → m'.wf = true →
    (∀ addr < 65536, m.read addr = m'.read addr) → m = m'

/-- Rules R37, R38: the reset values, for every initial memory (the parameter `initMem`). -/
def Obligations.ResetZeroesEveryRegister : Prop :=
  ∀ initMem : Memory,
    let s := State.powerOn initMem
    (∀ r : Reg8, s.reg8 r = 0) ∧ (∀ p : Reg16, s.reg16 p = 0) ∧ s.pc = 0 ∧ s.sp = 0 ∧
    s.f.z = false ∧ s.f.n = false ∧ s.f.h = false ∧ s.f.c = false ∧ s.f.toByte = 0 ∧ s.fault = .none ∧
    s.mem = initMem ∧ s = { State.reset with mem := initMem }

/-! ## The step (40_execute.md, 60_exceptions.md, 70_reset_and_hazards.md) -/

/-- A step on a request whose word decodes to `i`, with the latch none, is `exec i` on the state with the request taken and
the outputs cleared, then acknowledged (rule R92). The empty outputs and `inputs` are the model's (log entries 1 and 5). -/
def Obligations.StepRunsTheDecodedInstruction : Prop :=
  (∀ (s : State) (w : DIW) (rest : List Request) (i : Instr),
    s.inputs = ⟨false, true, w⟩ :: rest → s.fault = .none → decode w = .ok i →
    step s =
      match exec i { s with inputs := rest, out := ⟨.idle, []⟩ } with
      | .next t => .next { t with out := ⟨.ok, t.out.bus⟩ }
      | .fault r => .fault r
      | .refused r => .refused r) ∧
  (∀ (s : State) (w : DIW) (i : Instr), decode w = .ok i → s.fault = .none →
    step (s.withFetchWord 24 w.toNat) =
      match exec i { s with out := ⟨.idle, []⟩ } with
      | .next t => .next { t with out := ⟨.ok, t.out.bus⟩ }
      | .fault r => .fault r
      | .refused r => .refused r)

/-- Rules R200, R201: a malformed word sets the latch to its KIND and TGT and changes nothing else; there is no bus access;
the fault ports report the fields, `ack` is 0 and the cause code is 1. That the request is taken off `inputs` and that the
machine goes on to a next state is the model's way of showing it (log entries 1 and 2). -/
def Obligations.MalformedWordOnlySetsTheFaultLatch : Prop :=
  ∀ (s : State) (w : DIW) (rest : List Request),
    s.inputs = ⟨false, true, w⟩ :: rest → s.fault = .none → wfWord w = false →
    ∃ t, step s = .next t ∧
      t = { s with inputs := rest, fault := .faulted (w.extractLsb' 16 8) (w.extractLsb' 8 4), out := t.out } ∧
      t.out.bus = [] ∧ t.ackPort = false ∧ t.faultPort = true ∧ t.faultKindPort = some (w.extractLsb' 16 8) ∧
      t.faultTgtPort = some (w.extractLsb' 8 4) ∧ t.causeCode = some 1

/-- Rule R203, for a whole run (requests are taken off `inputs`: log entry 1): from a faulted state, any number of steps in which the harness does not assert `rst`
changes no register, no flag, no memory byte and not the latch, and makes no bus access. -/
def Obligations.FaultedCoreRefusesUntilReset : Prop :=
  ∀ (n : Nat) (s : State), s.fault ≠ .none → (∀ q ∈ s.inputs, q.rst = false) →
    ∃ t, runSteps (n + 1) s = .next t ∧
      t = { s with inputs := s.inputs.drop (n + 1), out := t.out } ∧ t.out.bus = [] ∧ t.ackPort = false ∧
      t.faultPort = true

/-- The refusal comes before decoding: on a faulted CORE a request with any word, malformed or not, is refused and the latch
keeps the first word's fields; on any other CORE a malformed word, whatever its defects, raises the one fault with its KIND
and TGT. (60_exceptions.md rule R206, which the spec marks as derived; the outcome on `out` and the consumed request are
the model's, log entries 2, 3 and 5.) -/
def Obligations.RefusalComesBeforeDecoding : Prop :=
  ∀ (s : State) (w : DIW) (rest : List Request),
    s.inputs = ⟨false, true, w⟩ :: rest →
    (s.fault ≠ .none → step s = .next { s with inputs := rest, out := ⟨.refused, []⟩ }) ∧
    (s.fault = .none → wfWord w = false →
      step s = .next { s with
        inputs := rest
        fault := .faulted (w.extractLsb' 16 8) (w.extractLsb' 8 4)
        out := ⟨.fault (w.extractLsb' 16 8) (w.extractLsb' 8 4), []⟩ })

/-- A request with `rst`, whatever `req` and `diw`, from any state, puts every register and the latch at the reset values,
leaves memory, runs nothing, and drives no `ack` and no bus access (70_reset_and_hazards.md rules R220, R227). That the
request is taken off `inputs` and the later ones stay there is the model's choice (log entries 1 and 12). -/
def Obligations.ResetWinsAndKeepsMemory : Prop :=
  ∀ (s : State) (req : Bool) (w : DIW) (rest : List Request),
    s.inputs = ⟨true, req, w⟩ :: rest →
    ∃ t, step s = .next t ∧ (∀ r : Reg8, t.reg8 r = 0) ∧ t.pc = 0 ∧ t.sp = 0 ∧ t.f = ⟨false, false, false, false⟩ ∧
      t.fault = .none ∧ t.mem = s.mem ∧ t.inputs = rest ∧ t.ackPort = false ∧ t.out.bus = []

/-- With no request CORE executes nothing and holds its state, from reset and from any state (60_exceptions.md rule R215,
70_reset_and_hazards.md rule R221). The case of an empty `inputs` is the model's (log entry 1). -/
def Obligations.WithoutRequestCoreHoldsItsState : Prop :=
  (∀ (s : State) (w : DIW) (rest : List Request), s.inputs = ⟨false, false, w⟩ :: rest →
    step s = .next { s with inputs := rest, out := ⟨.idle, []⟩ }) ∧
  (∀ s : State, s.inputs = [] → step s = .next { s with out := ⟨.idle, []⟩ }) ∧
  step State.reset = .next State.reset

/-- Nothing stops the machine: for any number of steps from any state there is a next state. -/
def Obligations.NoRunEverStops : Prop :=
  ∀ (n : Nat) (s : State), ∃ t, runSteps n s = .next t

/-! ## The invariant -/

/-- The invariant holds right after reset, with no byte listed (log entry 4) or with any canonical initial memory. -/
def Obligations.InvariantHoldsAtReset : Prop :=
  State.reset.Inv ∧ ∀ initMem : Memory, initMem.wf = true → (State.powerOn initMem).Inv

/-- Every step from every state keeps the invariant: memory canonical, PC 0x0000, outputs in agreement with the latch and
at most one read followed by one write at the same address on the bus. -/
def Obligations.StepKeepsTheInvariant : Prop :=
  ∀ s t : State, s.Inv → step s = .next t → t.Inv

/-- Every CoreState with latch none and PC 0x0000 is reached from reset by sending words of CORE's own instructions, with
memory as it was (70_reset_and_hazards.md rule R222). -/
def Obligations.EveryRunningStateIsReachableFromReset : Prop :=
  ∀ s : State, s.fault = .none → s.pc = 0 →
    ∃ (ws : List DIW) (t : State), (∀ w ∈ ws, wfWord w = true) ∧
      runWords ws (State.powerOn s.mem) = .next t ∧ { t with inputs := s.inputs, out := s.out } = s

/-! ## Frames over all instructions -/

/-- Every instruction completes, and changes no 8-bit register but those of its destination (rule R97), SP only where SP is
its destination, and never PC, the latch or the waiting requests. -/
def Obligations.InstructionChangesOnlyItsDestination : Prop :=
  ∀ (i : Instr) (s : State), ∃ t, exec i s = .next t ∧
    (∀ r : Reg8, (destination i).holds8 r = false → t.reg8 r = s.reg8 r) ∧
    (destination i ≠ .pair .sp → t.sp = s.sp) ∧
    t.pc = s.pc ∧ t.fault = s.fault ∧ t.inputs = s.inputs ∧ t.out.outcome = s.out.outcome

/-- Every instruction completes with each flag kept, cleared or set as the flag table of 10_state.md section 2 says. -/
def Obligations.FlagsFollowTheFlagTable : Prop :=
  ∀ (i : Instr) (s : State), ∃ t, exec i s = .next t ∧
    (flagTable i).z.allows s.f.z t.f.z ∧ (flagTable i).n.allows s.f.n t.f.n ∧
    (flagTable i).h.allows s.f.h t.f.h ∧ (flagTable i).c.allows s.f.c t.f.c

/-- No byte of memory changes but the one at `x[HL]`, and that only for an instruction that writes a `(HL)` target; the
address is that of the state before the instruction (20_memory.md rules R42, R43; 40_execute.md rule R103). -/
def Obligations.MemoryChangesOnlyAtHL : Prop :=
  ∀ (i : Instr) (s : State), s.mem.wf = true → ∃ t, exec i s = .next t ∧
    (accessTable i ≠ .readThenWrite → ∀ addr, t.mem.read addr = s.mem.read addr) ∧
    (∀ addr, addr ≠ s.hlAddr.toNat → t.mem.read addr = s.mem.read addr)

/-- Rule R43: the bus accesses of a transaction, by kind, in order; a transaction that faults makes none. -/
def Obligations.BusAccessesFollowTheAccessTable : Prop :=
  (∀ (i : Instr) (s : State), s.mem.wf = true → ∃ t, exec i s = .next t ∧
    t.out.bus = s.out.bus ++
      match accessTable i with
      | .noAccess => []
      | .oneRead => [.read s.hlAddr (s.mem.read s.hlAddr.toNat)]
      | .readThenWrite =>
        [.read s.hlAddr (s.mem.read s.hlAddr.toNat), .write s.hlAddr (t.mem.read s.hlAddr.toNat)]) ∧
  (∀ (s t : State) (w : DIW), wfWord w = false → step (s.send w) = .next t → t.out.bus = [])

/-- No instruction reads or writes PC (10_state.md rule R31, 40_execute.md rule R104): with another PC, the same instruction
leaves the same state but for that PC. -/
def Obligations.NoInstructionReadsOrWritesPC : Prop :=
  ∀ (i : Instr) (s : State) (pc : Word16), ∃ t, exec i s = .next t ∧ t.pc = s.pc ∧
    exec i { s with pc := pc } = .next { t with pc := pc }

/-- No instruction reads Z, N or H (10_state.md section 2): two states that differ only there give the same registers,
memory, bus accesses and C, and the same Z, N and H too, but for a flag the flag table keeps: that one holds the value it
had in each. -/
def Obligations.NoInstructionReadsZNH : Prop :=
  ∀ (i : Instr) (s : State) (z n h : Bool), ∃ t u, exec i s = .next t ∧
    exec i { s with f := ⟨z, n, h, s.f.c⟩ } = .next u ∧ u = { t with f := u.f } ∧ u.f.c = t.f.c ∧
    (u.f.z = if (flagTable i).z = .kept then z else t.f.z) ∧
    (u.f.n = if (flagTable i).n = .kept then n else t.f.n) ∧
    (u.f.h = if (flagTable i).h = .kept then h else t.f.h)

/-! ## Results, one rule of the family files each: the words, the operands, the result, the flags and the frame

Each names every form of its kind: the operand `o` ranges over the registers, `(HL)` and the immediates, the target `t`
over the registers and `(HL)`. The next state is given whole: what is not named is unchanged. -/

/-- Rule R111, with the operands of rule R110. -/
def Obligations.AddResultAndFlags : Prop :=
  ∀ (o : Operand8) (s : State), decode (operandWord 0x01 o) = .ok (Instr.addOf o) ∧
    ∃ res : Byte, res.toNat = (s.a.toNat + (s.operandValue o).toNat) % 256 ∧
      exec (Instr.addOf o) s = .next { s.withBus (s.operandAccess o) with
        a := res
        f := ⟨decide (res = 0), false, decide (s.a.toNat % 16 + (s.operandValue o).toNat % 16 > 0xF),
          decide (s.a.toNat + (s.operandValue o).toNat > 0xFF)⟩ }

/-- Rule R112: the carry-in is the C flag before the instruction. -/
def Obligations.AdcResultAndFlags : Prop :=
  ∀ (o : Operand8) (s : State), decode (operandWord 0x02 o) = .ok (Instr.adcOf o) ∧
    ∃ res : Byte, res.toNat = (s.a.toNat + (s.operandValue o).toNat + s.f.c.toNat) % 256 ∧
      exec (Instr.adcOf o) s = .next { s.withBus (s.operandAccess o) with
        a := res
        f := ⟨decide (res = 0), false,
          decide (s.a.toNat % 16 + (s.operandValue o).toNat % 16 + s.f.c.toNat > 0xF),
          decide (s.a.toNat + (s.operandValue o).toNat + s.f.c.toNat > 0xFF)⟩ }

/-- Rule R113: the half-carry boundary is bit 11, and Z is unchanged. -/
def Obligations.AddhlResultAndFlags : Prop :=
  ∀ (p : Reg16) (s : State), decode (pairWord 0x03 p) = .ok (.addhlP p) ∧
    exec (.addhlP p) s = .next { s.withPair (s.pairValue .hl + s.pairValue p) .hl with
      f := ⟨s.f.z, false, decide (s.pairValue .hl % 4096 + s.pairValue p % 4096 > 0xFFF),
        decide (s.pairValue .hl + s.pairValue p > 0xFFFF)⟩ }

/-- Rule R114. -/
def Obligations.SubResultAndFlags : Prop :=
  ∀ (o : Operand8) (s : State), decode (operandWord 0x04 o) = .ok (Instr.subOf o) ∧
    ∃ res : Byte, (res.toNat : Int) = ((s.a.toNat : Int) - (s.operandValue o).toNat) % 256 ∧
      exec (Instr.subOf o) s = .next { s.withBus (s.operandAccess o) with
        a := res
        f := ⟨decide (res = 0), true, decide (s.a.toNat % 16 < (s.operandValue o).toNat % 16),
          decide (s.a.toNat < (s.operandValue o).toNat)⟩ }

/-- Rule R115: the right side of the borrow comparisons is not truncated. -/
def Obligations.SbcResultAndFlags : Prop :=
  ∀ (o : Operand8) (s : State), decode (operandWord 0x05 o) = .ok (Instr.sbcOf o) ∧
    ∃ res : Byte, (res.toNat : Int) = ((s.a.toNat : Int) - (s.operandValue o).toNat - s.f.c.toNat) % 256 ∧
      exec (Instr.sbcOf o) s = .next { s.withBus (s.operandAccess o) with
        a := res
        f := ⟨decide (res = 0), true, decide (s.a.toNat % 16 < (s.operandValue o).toNat % 16 + s.f.c.toNat),
          decide (s.a.toNat < (s.operandValue o).toNat + s.f.c.toNat)⟩ }

/-- Rule R116: A is unchanged, the flags are those of the subtraction, exactly SUB's. -/
def Obligations.CpSetsTheFlagsOfSubAndKeepsA : Prop :=
  ∀ (o : Operand8) (s : State), decode (operandWord 0x06 o) = .ok (Instr.cpOf o) ∧
    ∃ t, exec (Instr.cpOf o) s = .next t ∧
      t = { s.withBus (s.operandAccess o) with
        f := ⟨decide (s.a = s.operandValue o), true, decide (s.a.toNat % 16 < (s.operandValue o).toNat % 16),
          decide (s.a.toNat < (s.operandValue o).toNat)⟩ } ∧
      ∃ u, exec (Instr.subOf o) s = .next u ∧ u = { t with a := u.a }

/-- Rules R130, R131, R132. -/
def Obligations.LogicalResultAndFlags : Prop :=
  ∀ (o : Operand8) (s : State),
    decode (operandWord 0x07 o) = .ok (Instr.andOf o) ∧ decode (operandWord 0x08 o) = .ok (Instr.orOf o) ∧
    decode (operandWord 0x09 o) = .ok (Instr.xorOf o) ∧
    (∃ res : Byte, (∀ k < 8, res.getLsbD k = (s.a.getLsbD k && (s.operandValue o).getLsbD k)) ∧
      exec (Instr.andOf o) s =
        .next { s.withBus (s.operandAccess o) with a := res, f := ⟨decide (res = 0), false, true, false⟩ }) ∧
    (∃ res : Byte, (∀ k < 8, res.getLsbD k = (s.a.getLsbD k || (s.operandValue o).getLsbD k)) ∧
      exec (Instr.orOf o) s =
        .next { s.withBus (s.operandAccess o) with a := res, f := ⟨decide (res = 0), false, false, false⟩ }) ∧
    (∃ res : Byte, (∀ k < 8, res.getLsbD k = (s.a.getLsbD k ^^ (s.operandValue o).getLsbD k)) ∧
      exec (Instr.xorOf o) s =
        .next { s.withBus (s.operandAccess o) with a := res, f := ⟨decide (res = 0), false, false, false⟩ })

/-- Rule R140 (its half-carry formula is the spec's D20, log entry 7): the 8-bit forms keep C; the 16-bit forms change no flag. -/
def Obligations.IncResultAndFlags : Prop :=
  (∀ (t : Target8) (s : State), decode (targetWord 0x0A t) = .ok (Instr.incOf t) ∧
    ∃ res : Byte, res.toNat = ((s.operandValue (.target t)).toNat + 1) % 256 ∧
      exec (Instr.incOf t) s = .next { s.withTarget res t with
        f := ⟨decide (res = 0), false, decide ((s.operandValue (.target t)).toNat % 16 + 1 > 0xF), s.f.c⟩ }) ∧
  (∀ (p : Reg16) (s : State), decode (pairWord 0x0A p) = .ok (.incP p) ∧
    exec (.incP p) s = .next (s.withPair ((s.pairValue p + 1) % 65536) p))

/-- Rule R141 (its half-carry formula is the spec's D20, log entry 7): the 8-bit forms keep C; the 16-bit forms change no flag. -/
def Obligations.DecResultAndFlags : Prop :=
  (∀ (t : Target8) (s : State), decode (targetWord 0x0B t) = .ok (Instr.decOf t) ∧
    ∃ res : Byte, res.toNat = ((s.operandValue (.target t)).toNat + 255) % 256 ∧
      exec (Instr.decOf t) s = .next { s.withTarget res t with
        f := ⟨decide (res = 0), true, decide ((s.operandValue (.target t)).toNat % 16 < 1), s.f.c⟩ }) ∧
  (∀ (p : Reg16) (s : State), decode (pairWord 0x0B p) = .ok (.decP p) ∧
    exec (.decP p) s = .next (s.withPair ((s.pairValue p + 65535) % 65536) p))

/-- Rules R150, R151. -/
def Obligations.CarryFlagOperations : Prop :=
  decode 0x0C0C00 = .ok .ccf ∧ decode 0x0D0C00 = .ok .scf ∧
  ∀ s : State, exec .ccf s = .next { s with f := ⟨s.f.z, false, false, !s.f.c⟩ } ∧
    exec .scf s = .next { s with f := ⟨s.f.z, false, false, true⟩ }

/-- Rules R160 to R163, bit by bit: the result, C from the bit shifted out, and Z, N, H cleared whatever the result. -/
def Obligations.AccumulatorRotates : Prop :=
  decode 0x0E0C00 = .ok .rra ∧ decode 0x0F0C00 = .ok .rla ∧ decode 0x100C00 = .ok .rrca ∧
  decode 0x110C00 = .ok .rlca ∧
  ∀ s : State,
    (∃ res : Byte, (∀ k < 8, res.getLsbD k = if k = 7 then s.f.c else s.a.getLsbD (k + 1)) ∧
      exec .rra s = .next { s with a := res, f := ⟨false, false, false, s.a.getLsbD 0⟩ }) ∧
    (∃ res : Byte, (∀ k < 8, res.getLsbD k = if k = 0 then s.f.c else s.a.getLsbD (k - 1)) ∧
      exec .rla s = .next { s with a := res, f := ⟨false, false, false, s.a.getLsbD 7⟩ }) ∧
    (∃ res : Byte, (∀ k < 8, res.getLsbD k = s.a.getLsbD ((k + 1) % 8)) ∧
      exec .rrca s = .next { s with a := res, f := ⟨false, false, false, s.a.getLsbD 0⟩ }) ∧
    (∃ res : Byte, (∀ k < 8, res.getLsbD k = s.a.getLsbD ((k + 7) % 8)) ∧
      exec .rlca s = .next { s with a := res, f := ⟨false, false, false, s.a.getLsbD 7⟩ })

/-- Rules R164 to R167, bit by bit, every 8-bit target; Z from the result. -/
def Obligations.IndexedRotates : Prop :=
  ∀ (t : Target8) (s : State),
    let old := s.operandValue (.target t)
    decode (targetWord 0x12 t) = .ok (Instr.rlcOf t) ∧ decode (targetWord 0x13 t) = .ok (Instr.rrcOf t) ∧
    decode (targetWord 0x14 t) = .ok (Instr.rlOf t) ∧ decode (targetWord 0x15 t) = .ok (Instr.rrOf t) ∧
    (∃ res : Byte, (∀ k < 8, res.getLsbD k = old.getLsbD ((k + 7) % 8)) ∧
      exec (Instr.rlcOf t) s =
        .next { s.withTarget res t with f := ⟨decide (res = 0), false, false, old.getLsbD 7⟩ }) ∧
    (∃ res : Byte, (∀ k < 8, res.getLsbD k = old.getLsbD ((k + 1) % 8)) ∧
      exec (Instr.rrcOf t) s =
        .next { s.withTarget res t with f := ⟨decide (res = 0), false, false, old.getLsbD 0⟩ }) ∧
    (∃ res : Byte, (∀ k < 8, res.getLsbD k = if k = 0 then s.f.c else old.getLsbD (k - 1)) ∧
      exec (Instr.rlOf t) s =
        .next { s.withTarget res t with f := ⟨decide (res = 0), false, false, old.getLsbD 7⟩ }) ∧
    (∃ res : Byte, (∀ k < 8, res.getLsbD k = if k = 7 then s.f.c else old.getLsbD (k + 1)) ∧
      exec (Instr.rrOf t) s =
        .next { s.withTarget res t with f := ⟨decide (res = 0), false, false, old.getLsbD 0⟩ })

/-- SLA, SRA, SRL bit by bit, every 8-bit target (45_rotate_shift.md rules R168 to R170). What the vacated bit receives is
marked there "from general knowledge, not in source" (92_eei_decisions.md D21, log entry 6). -/
def Obligations.ShiftsFillTheVacatedBit : Prop :=
  ∀ (t : Target8) (s : State),
    let old := s.operandValue (.target t)
    decode (targetWord 0x16 t) = .ok (Instr.slaOf t) ∧ decode (targetWord 0x17 t) = .ok (Instr.sraOf t) ∧
    decode (targetWord 0x18 t) = .ok (Instr.srlOf t) ∧
    (∃ res : Byte, (∀ k < 8, res.getLsbD k = if k = 0 then false else old.getLsbD (k - 1)) ∧
      exec (Instr.slaOf t) s =
        .next { s.withTarget res t with f := ⟨decide (res = 0), false, false, old.getLsbD 7⟩ }) ∧
    (∃ res : Byte, (∀ k < 8, res.getLsbD k = if k = 7 then old.getLsbD 7 else old.getLsbD (k + 1)) ∧
      exec (Instr.sraOf t) s =
        .next { s.withTarget res t with f := ⟨decide (res = 0), false, false, old.getLsbD 0⟩ }) ∧
    (∃ res : Byte, (∀ k < 8, res.getLsbD k = if k = 7 then false else old.getLsbD (k + 1)) ∧
      exec (Instr.srlOf t) s =
        .next { s.withTarget res t with f := ⟨decide (res = 0), false, false, old.getLsbD 0⟩ })

/-- Rule R171. -/
def Obligations.SwapExchangesNibbles : Prop :=
  ∀ (t : Target8) (s : State),
    let old := s.operandValue (.target t)
    decode (targetWord 0x19 t) = .ok (Instr.swapOf t) ∧
    ∃ res : Byte, res.toNat = old.toNat % 16 * 16 + old.toNat / 16 ∧
      exec (Instr.swapOf t) s = .next { s.withTarget res t with f := ⟨decide (res = 0), false, false, false⟩ }

/-- Rule R180: Z is the complement of the tested bit, C is kept, the target is not written; every bit index 0 to 7. -/
def Obligations.BitTestsWithoutWriting : Prop :=
  ∀ (n : Nat) (t : Target8) (s : State), n < 8 →
    decode (bitWord 0x1A t n) = .ok (Instr.bitOf n t) ∧
    exec (Instr.bitOf n t) s = .next { s.withBus (s.operandAccess (.target t)) with
      f := ⟨!(s.operandValue (.target t)).getLsbD n, false, true, s.f.c⟩ }

/-- Rules R181, R182: one bit of the target is set or cleared, no other bit and no flag changes; a `(HL)` target is written
even when the bit already has its value. -/
def Obligations.SetAndResetWriteOneBit : Prop :=
  ∀ (n : Nat) (t : Target8) (s : State), n < 8 →
    let old := s.operandValue (.target t)
    decode (bitWord 0x1B t n) = .ok (Instr.setOf n t) ∧ decode (bitWord 0x1C t n) = .ok (Instr.resetOf n t) ∧
    (∃ res : Byte, (∀ k < 8, res.getLsbD k = if k = n then true else old.getLsbD k) ∧
      exec (Instr.setOf n t) s = .next (s.withTarget res t)) ∧
    (∃ res : Byte, (∀ k < 8, res.getLsbD k = if k = n then false else old.getLsbD k) ∧
      exec (Instr.resetOf n t) s = .next (s.withTarget res t))

/-- Rule R190: Z and C are unchanged. -/
def Obligations.CplComplementsA : Prop :=
  decode 0x1D0C00 = .ok .cpl ∧
  ∀ s : State, ∃ res : Byte, res.toNat = 0xFF - s.a.toNat ∧
    exec .cpl s = .next { s with a := res, f := ⟨s.f.z, true, true, s.f.c⟩ }

/-! ## Consequences over several instructions -/

/-- Two 16-bit values are added byte by byte: ADD of the low bytes, then ADC of the high bytes with the carry kept (as in
95_test_vectors.md P2) gives the two bytes of the sum, and its carry. -/
def Obligations.AddThenAdcAddsSixteenBits : Prop :=
  ∀ (s : State) (x y : Word16), ∃ t u, exec (.addI (y.extractLsb' 0 8)) { s with a := x.extractLsb' 0 8 } = .next t ∧
    exec (.adcI (y.extractLsb' 8 8)) { t with a := x.extractLsb' 8 8 } = .next u ∧
    u.a.toNat * 256 + t.a.toNat = (x.toNat + y.toNat) % 65536 ∧ u.f.c = decide (x.toNat + y.toNat > 0xFFFF)

/-- The corner cases of rules R160, R162, R171, R190 and R150: nine RRA restore A and C, eight RRCA restore A, two SWAP
restore any 8-bit target, two CPL restore A, two CCF restore C. -/
def Obligations.RepeatedRotatesRestoreTheByte : Prop :=
  (∀ s : State, ∃ t, runWords (List.replicate 9 0x0E0C00) { s with fault := .none } = .next t ∧ t.a = s.a ∧
    t.f.c = s.f.c) ∧
  (∀ s : State, ∃ t, runWords (List.replicate 8 0x100C00) { s with fault := .none } = .next t ∧ t.a = s.a) ∧
  (∀ (x : Target8) (s : State), s.mem.wf = true →
    ∃ t u, exec (Instr.swapOf x) s = .next t ∧ exec (Instr.swapOf x) t = .next u ∧
      u.operandValue (.target x) = s.operandValue (.target x)) ∧
  (∀ s : State, ∃ t, runWords [0x1D0C00, 0x1D0C00] { s with fault := .none } = .next t ∧ t.a = s.a) ∧
  (∀ s : State, ∃ t, runWords [0x0C0C00, 0x0C0C00] { s with fault := .none } = .next t ∧ t.f.c = s.f.c)
end

