-- ==== Sys2Proof/Laws/Decode.lean ====
section
/-! SUPPORT. The fields of a word and of a packed word (30_encoding.md rule R61), and the codes read back (rules R62 to
R64). -/

namespace Sys2Proof

variable (k : BitVec 8) (p rsv : BitVec 2) (t : BitVec 4) (v : Byte)

@[simp] theorem kindField_packFields : kindField (packFields k p rsv t v) = k := by
  apply BitVec.eq_of_getLsbD_eq
  intro i hi
  simp only [kindField, packFields, BitVec.getLsbD_extractLsb', BitVec.getLsbD_append]
  interval_cases i <;> simp

@[simp] theorem ptagField_packFields : ptagField (packFields k p rsv t v) = p := by
  apply BitVec.eq_of_getLsbD_eq
  intro i hi
  simp only [ptagField, packFields, BitVec.getLsbD_extractLsb', BitVec.getLsbD_append]
  interval_cases i <;> simp

@[simp] theorem rsvField_packFields : rsvField (packFields k p rsv t v) = rsv := by
  apply BitVec.eq_of_getLsbD_eq
  intro i hi
  simp only [rsvField, packFields, BitVec.getLsbD_extractLsb', BitVec.getLsbD_append]
  interval_cases i <;> simp

@[simp] theorem tgtField_packFields : tgtField (packFields k p rsv t v) = t := by
  apply BitVec.eq_of_getLsbD_eq
  intro i hi
  simp only [tgtField, packFields, BitVec.getLsbD_extractLsb', BitVec.getLsbD_append]
  interval_cases i <;> simp

@[simp] theorem pvalField_packFields : pvalField (packFields k p rsv t v) = v := by
  apply BitVec.eq_of_getLsbD_eq
  intro i hi
  simp only [pvalField, packFields, BitVec.getLsbD_extractLsb', BitVec.getLsbD_append]
  interval_cases i <;> simp

/-- A word is its fields. -/
theorem packFields_of_fields (w : DIW) :
    packFields (kindField w) (ptagField w) (rsvField w) (tgtField w) (pvalField w) = w := by
  apply BitVec.eq_of_getLsbD_eq
  intro i hi
  simp only [packFields, kindField, ptagField, rsvField, tgtField, pvalField, BitVec.getLsbD_append,
    BitVec.getLsbD_extractLsb']
  rcases Nat.lt_or_ge i 8 with h | h
  · simp [h]
  · rcases Nat.lt_or_ge i 12 with h' | h'
    · simp [show ¬ i < 8 by omega, show i - 8 < 4 by omega, show 8 + (i - 8) = i by omega]
    · rcases Nat.lt_or_ge i 14 with h'' | h''
      · simp [show ¬ i < 8 by omega, show ¬ i - 8 < 4 by omega, show i - 8 - 4 < 2 by omega,
          show 12 + (i - 8 - 4) = i by omega]
      · rcases Nat.lt_or_ge i 16 with h3 | h3
        · simp [show ¬ i < 8 by omega, show ¬ i - 8 < 4 by omega, show ¬ i - 8 - 4 < 2 by omega,
            show i - 8 - 4 - 2 < 2 by omega, show 14 + (i - 8 - 4 - 2) = i by omega]
        · simp [show ¬ i < 8 by omega, show ¬ i - 8 < 4 by omega, show ¬ i - 8 - 4 < 2 by omega,
            show ¬ i - 8 - 4 - 2 < 2 by omega, show i - 8 - 4 - 2 - 2 < 8 by omega,
            show 16 + (i - 8 - 4 - 2 - 2) = i by omega]

@[simp] theorem kindOfCode_kindCode (x : Kind) : kindOfCode (kindCode x) = some x := by
  cases x <;> rfl

@[simp] theorem targetOfCode_targetCode (x : Target) : targetOfCode (targetCode x) = some x := by
  cases x <;> rfl

/-- A code that selects a kind is that kind's code (rule R62). -/
theorem kindCode_of_kindOfCode {k : BitVec 8} {x : Kind} (h : kindOfCode k = some x) : kindCode x = k := by
  revert h
  cases x <;> revert k <;> decide

/-- A code that selects a target is that target's code (rule R63). -/
theorem targetCode_of_targetOfCode {t : BitVec 4} {x : Target} (h : targetOfCode t = some x) : targetCode x = t := by
  revert h
  cases x <;> revert t <;> decide

/-- The payload the fields name has those fields (rules R64 to R67). -/
theorem payload_fields {p : BitVec 2} {v : Byte} {x : Payload} (h : payloadOfFields p v = .ok x) :
    x.tag = p ∧ x.value = v := by
  have hp : ∀ q : BitVec 2, q = 0 ∨ q = 1 ∨ q = 2 ∨ q = 3 := by decide
  rcases hp p with rfl | rfl | rfl | rfl
  · by_cases hv : v = 0
    · simp only [payloadOfFields, hv] at h
      cases h
      simp [Payload.tag, Payload.value, hv, ptagAbsent]
    · have h0 : payloadOfFields 0 v = .error .payloadNotZero := if_neg hv
      rw [h0] at h
      cases h
  · simp only [payloadOfFields] at h
    cases h
    exact ⟨rfl, rfl⟩
  · by_cases hv : v.toNat < 8
    · simp [payloadOfFields, hv] at h
      subst h
      simp [Payload.tag, Payload.value, ptagBitIndex]
    · simp [payloadOfFields, hv] at h
  · simp [payloadOfFields] at h

/-- Decoding a packed word whose codes select a kind, a target and a payload (rules R61 to R67). -/
theorem decode_packFields {kd : Kind} {tg : Target} {pl : Payload} (hk : kindOfCode k = some kd)
    (ht : targetOfCode t = some tg) (hp : payloadOfFields p v = .ok pl) :
    decode (packFields k p 0 t v) = resolve ⟨kd, tg, pl⟩ := by
  simp [decode, hk, ht, hp]

/-- What a word that decodes looks like: reserved bits 0, and a descriptor that resolves. -/
theorem decode_ok_cases {w : DIW} {i : Instr} (h : decode w = .ok i) :
    ∃ kd tg pl, rsvField w = 0 ∧ kindOfCode (kindField w) = some kd ∧ targetOfCode (tgtField w) = some tg ∧
      payloadOfFields (ptagField w) (pvalField w) = .ok pl ∧ resolve ⟨kd, tg, pl⟩ = .ok i := by
  unfold decode at h
  split at h
  · cases h
  · rename_i hr
    split at h
    · cases h
    · cases h
    · cases h
    · rename_i kd tg pl hk ht hp
      exact ⟨kd, tg, pl, by simpa using hr, hk, ht, hp, h⟩

end Sys2Proof
end

