-- ==== Sys2Proof/Laws/Memory.lean ====
section
/-! SUPPORT. The laws of memory (20_memory.md rule R41): a read after a write, and the canonical form, which every memory
operation keeps. -/

namespace Sys2Proof.Machine

theorem Memory.wfFrom_cons {lo k : Nat} {v : Byte} {rest : Memory} :
    Memory.wfFrom lo ((k, v) :: rest) = true ↔
      lo ≤ k ∧ k < Config.addressSpace ∧ v ≠ Config.unlistedByte ∧ Memory.wfFrom (k + 1) rest = true := by
  simp [Memory.wfFrom, and_assoc]

/-- A lower bound can be lowered. -/
theorem Memory.wfFrom_mono {m : Memory} {lo lo' : Nat} (h : lo' ≤ lo) (hm : Memory.wfFrom lo m = true) :
    Memory.wfFrom lo' m = true := by
  cases m with
  | nil => rfl
  | cons x rest =>
    obtain ⟨k, v⟩ := x
    rw [Memory.wfFrom_cons] at hm ⊢
    exact ⟨le_trans h hm.1, hm.2⟩

/-- Below the lower bound nothing is listed. -/
theorem Memory.read_below {m : Memory} {lo addr : Nat} (hm : Memory.wfFrom lo m = true) (h : addr < lo) :
    Memory.read m addr = Config.unlistedByte := by
  induction m generalizing lo with
  | nil => rfl
  | cons x rest ih =>
    obtain ⟨k, v⟩ := x
    obtain ⟨hk, -, -, hrest⟩ := Memory.wfFrom_cons.mp hm
    have hne : addr ≠ k := by omega
    simp only [Memory.read, hne, if_false]
    exact ih hrest (by omega)

/-- A write keeps the canonical form above any lower bound it respects. -/
theorem Memory.write_wfFrom {m : Memory} {lo addr : Nat} (v : Byte) (hm : Memory.wfFrom lo m = true) (h : lo ≤ addr)
    (ha : addr < Config.addressSpace) : Memory.wfFrom lo (Memory.write m addr v) = true := by
  induction m generalizing lo with
  | nil =>
    by_cases hv : v = Config.unlistedByte
    · simp [Memory.write, hv, Memory.wfFrom]
    · simp [Memory.write, hv, h, ha, Memory.wfFrom]
  | cons x rest ih =>
    obtain ⟨k, w⟩ := x
    obtain ⟨hk, hks, hw, hrest⟩ := Memory.wfFrom_cons.mp hm
    rcases Nat.lt_trichotomy addr k with hlt | heq | hgt
    · by_cases hv : v = Config.unlistedByte
      · simpa [Memory.write, hlt, hv] using hm
      · simp only [Memory.write, hlt, hv, if_true, if_false, Memory.wfFrom_cons]
        exact ⟨h, ha, hv, hlt, hks, hw, hrest⟩
    · subst heq
      by_cases hv : v = Config.unlistedByte
      · simpa [Memory.write, hv] using Memory.wfFrom_mono (by omega) hrest
      · simp only [Memory.write, lt_irrefl, hv, if_true, if_false, Memory.wfFrom_cons]
        exact ⟨hk, hks, hv, hrest⟩
    · have h1 : ¬ addr < k := by omega
      have h2 : ¬ addr = k := by omega
      simp only [Memory.write, h1, h2, if_false, Memory.wfFrom_cons]
      exact ⟨hk, hks, hw, ih hrest (by omega)⟩

/-- A write at an address of the address space keeps the canonical form. -/
theorem Memory.write_wf {m : Memory} {addr : Nat} (v : Byte) (hm : m.wf = true) (ha : addr < Config.addressSpace) :
    (Memory.write m addr v).wf = true :=
  Memory.write_wfFrom v hm (Nat.zero_le _) ha

/-- Every 16-bit address lies in the address space (20_memory.md rule R42). -/
theorem word16_lt_addressSpace (x : Word16) : x.toNat < Config.addressSpace := x.isLt

@[simp] theorem Memory.wf_nil : Memory.wf [] = true := rfl

end Sys2Proof.Machine
end

