-- ==== Sys2Proof/Laws/PerInstr.lean ====
section
/-! SUPPORT. Laws per instruction. EncodeWellFormed: the word of a well-formed instruction satisfies rule R69
(30_encoding.md). -/

namespace Sys2Proof

/-- Rule R69 on a packed word whose code selects the kind `k`. -/
theorem wfWord_word (d : Descriptor) :
    wfWord d.word =
      match d.kind.cls with
      | .alu8 => ((targetCode d.target).ule 7 && d.payload.tag == ptagAbsent && d.payload.value == 0) ||
          (targetCode d.target == 12 && d.payload.tag == ptagImm8)
      | .add16 => (8#4).ule (targetCode d.target) && (targetCode d.target).ule 11 && d.payload.tag == ptagAbsent &&
          d.payload.value == 0
      | .incdec => (targetCode d.target).ule 11 && d.payload.tag == ptagAbsent && d.payload.value == 0
      | .impl => targetCode d.target == 12 && d.payload.tag == ptagAbsent && d.payload.value == 0
      | .shift => (targetCode d.target).ule 7 && d.payload.tag == ptagAbsent && d.payload.value == 0
      | .bitop => (targetCode d.target).ule 7 && d.payload.tag == ptagBitIndex &&
          d.payload.value.extractLsb' 3 5 == 0 := by
  simp only [wfWord, Descriptor.word, rsvField_packFields, kindField_packFields, ptagField_packFields,
    tgtField_packFields, pvalField_packFields, kindOfCode_kindCode]
  cases d.kind.cls <;> rfl

/-- A bit index that fits is a 3-bit value. -/
theorem bitIndex_high_bits {n : Nat} (h : bitIndexOk n = true) : (BitVec.ofNat 8 n).extractLsb' 3 5 = 0 := by
  have hn : n < 8 := of_decide_eq_true h
  interval_cases n <;> rfl

namespace Laws.EncodeWellFormed

/-- The word of the instruction is well formed where the instruction is. -/
def Statement (i : Instr) : Prop := i.wellFormed = true → wfWord (encode i) = true

theorem addR (r : Reg8) : Statement (.addR r) := by
  cases r <;> exact fun _ => rfl

theorem addM : Statement .addM := fun _ => rfl

theorem addI (v : Byte) : Statement (.addI v) := fun _ => wfWord_word (Instr.descriptor (.addI v))

theorem adcR (r : Reg8) : Statement (.adcR r) := by
  cases r <;> exact fun _ => rfl

theorem adcM : Statement .adcM := fun _ => rfl

theorem adcI (v : Byte) : Statement (.adcI v) := fun _ => wfWord_word (Instr.descriptor (.adcI v))

theorem addhlP (p : Reg16) : Statement (.addhlP p) := by
  cases p <;> exact fun _ => rfl

theorem subR (r : Reg8) : Statement (.subR r) := by
  cases r <;> exact fun _ => rfl

theorem subM : Statement .subM := fun _ => rfl

theorem subI (v : Byte) : Statement (.subI v) := fun _ => wfWord_word (Instr.descriptor (.subI v))

theorem sbcR (r : Reg8) : Statement (.sbcR r) := by
  cases r <;> exact fun _ => rfl

theorem sbcM : Statement .sbcM := fun _ => rfl

theorem sbcI (v : Byte) : Statement (.sbcI v) := fun _ => wfWord_word (Instr.descriptor (.sbcI v))

theorem cpR (r : Reg8) : Statement (.cpR r) := by
  cases r <;> exact fun _ => rfl

theorem cpM : Statement .cpM := fun _ => rfl

theorem cpI (v : Byte) : Statement (.cpI v) := fun _ => wfWord_word (Instr.descriptor (.cpI v))

theorem andR (r : Reg8) : Statement (.andR r) := by
  cases r <;> exact fun _ => rfl

theorem andM : Statement .andM := fun _ => rfl

theorem andI (v : Byte) : Statement (.andI v) := fun _ => wfWord_word (Instr.descriptor (.andI v))

theorem orR (r : Reg8) : Statement (.orR r) := by
  cases r <;> exact fun _ => rfl

theorem orM : Statement .orM := fun _ => rfl

theorem orI (v : Byte) : Statement (.orI v) := fun _ => wfWord_word (Instr.descriptor (.orI v))

theorem xorR (r : Reg8) : Statement (.xorR r) := by
  cases r <;> exact fun _ => rfl

theorem xorM : Statement .xorM := fun _ => rfl

theorem xorI (v : Byte) : Statement (.xorI v) := fun _ => wfWord_word (Instr.descriptor (.xorI v))

theorem incR (r : Reg8) : Statement (.incR r) := by
  cases r <;> exact fun _ => rfl

theorem incM : Statement .incM := fun _ => rfl

theorem incP (p : Reg16) : Statement (.incP p) := by
  cases p <;> exact fun _ => rfl

theorem decR (r : Reg8) : Statement (.decR r) := by
  cases r <;> exact fun _ => rfl

theorem decM : Statement .decM := fun _ => rfl

theorem decP (p : Reg16) : Statement (.decP p) := by
  cases p <;> exact fun _ => rfl

theorem ccf : Statement .ccf := fun _ => rfl

theorem scf : Statement .scf := fun _ => rfl

theorem rra : Statement .rra := fun _ => rfl

theorem rla : Statement .rla := fun _ => rfl

theorem rrca : Statement .rrca := fun _ => rfl

theorem rlca : Statement .rlca := fun _ => rfl

theorem rlcR (r : Reg8) : Statement (.rlcR r) := by
  cases r <;> exact fun _ => rfl

theorem rlcM : Statement .rlcM := fun _ => rfl

theorem rrcR (r : Reg8) : Statement (.rrcR r) := by
  cases r <;> exact fun _ => rfl

theorem rrcM : Statement .rrcM := fun _ => rfl

theorem rlR (r : Reg8) : Statement (.rlR r) := by
  cases r <;> exact fun _ => rfl

theorem rlM : Statement .rlM := fun _ => rfl

theorem rrR (r : Reg8) : Statement (.rrR r) := by
  cases r <;> exact fun _ => rfl

theorem rrM : Statement .rrM := fun _ => rfl

theorem slaR (r : Reg8) : Statement (.slaR r) := by
  cases r <;> exact fun _ => rfl

theorem slaM : Statement .slaM := fun _ => rfl

theorem sraR (r : Reg8) : Statement (.sraR r) := by
  cases r <;> exact fun _ => rfl

theorem sraM : Statement .sraM := fun _ => rfl

theorem srlR (r : Reg8) : Statement (.srlR r) := by
  cases r <;> exact fun _ => rfl

theorem srlM : Statement .srlM := fun _ => rfl

theorem swapR (r : Reg8) : Statement (.swapR r) := by
  cases r <;> exact fun _ => rfl

theorem swapM : Statement .swapM := fun _ => rfl

theorem bitR (n : Nat) (r : Reg8) : Statement (.bitR n r) := by
  intro h
  have hv := bitIndex_high_bits h
  rw [encode, wfWord_word]
  cases r <;> simp [Instr.descriptor, Descriptor.bitIndexed, Kind.cls, Payload.tag, Payload.value, hv, Reg8.target, targetCode]

theorem bitM (n : Nat) : Statement (.bitM n) := by
  intro h
  have hv := bitIndex_high_bits h
  rw [encode, wfWord_word]
  simp [Instr.descriptor, Descriptor.bitIndexed, Kind.cls, Payload.tag, Payload.value, hv, targetCode]

theorem setR (n : Nat) (r : Reg8) : Statement (.setR n r) := by
  intro h
  have hv := bitIndex_high_bits h
  rw [encode, wfWord_word]
  cases r <;> simp [Instr.descriptor, Descriptor.bitIndexed, Kind.cls, Payload.tag, Payload.value, hv, Reg8.target, targetCode]

theorem setM (n : Nat) : Statement (.setM n) := by
  intro h
  have hv := bitIndex_high_bits h
  rw [encode, wfWord_word]
  simp [Instr.descriptor, Descriptor.bitIndexed, Kind.cls, Payload.tag, Payload.value, hv, targetCode]

theorem resetR (n : Nat) (r : Reg8) : Statement (.resetR n r) := by
  intro h
  have hv := bitIndex_high_bits h
  rw [encode, wfWord_word]
  cases r <;> simp [Instr.descriptor, Descriptor.bitIndexed, Kind.cls, Payload.tag, Payload.value, hv, Reg8.target, targetCode]

theorem resetM (n : Nat) : Statement (.resetM n) := by
  intro h
  have hv := bitIndex_high_bits h
  rw [encode, wfWord_word]
  simp [Instr.descriptor, Descriptor.bitIndexed, Kind.cls, Payload.tag, Payload.value, hv, targetCode]

theorem cpl : Statement .cpl := fun _ => rfl

end Laws.EncodeWellFormed

end Sys2Proof
end

