-- ==== Sys2Proof/Laws/State.lean ====
section
/-! SUPPORT. Field by field: what each update of the state does to each field, so that no later proof unfolds a record
update. -/

namespace Sys2Proof.Machine

/-! ## Register writes -/

@[simp] theorem State.setReg8_a (s : State) (v : Byte) : s.setReg8 .a v = { s with a := v } := rfl
@[simp] theorem State.setReg8_b (s : State) (v : Byte) : s.setReg8 .b v = { s with b := v } := rfl
@[simp] theorem State.setReg8_c (s : State) (v : Byte) : s.setReg8 .c v = { s with c := v } := rfl
@[simp] theorem State.setReg8_d (s : State) (v : Byte) : s.setReg8 .d v = { s with d := v } := rfl
@[simp] theorem State.setReg8_e (s : State) (v : Byte) : s.setReg8 .e v = { s with e := v } := rfl
@[simp] theorem State.setReg8_h (s : State) (v : Byte) : s.setReg8 .h v = { s with h := v } := rfl
@[simp] theorem State.setReg8_l (s : State) (v : Byte) : s.setReg8 .l v = { s with l := v } := rfl
@[simp] theorem State.f_setReg8 (s : State) (r : Reg8) (v : Byte) : (s.setReg8 r v).f = s.f := by cases r <;> rfl
@[simp] theorem State.pc_setReg8 (s : State) (r : Reg8) (v : Byte) : (s.setReg8 r v).pc = s.pc := by cases r <;> rfl
@[simp] theorem State.sp_setReg8 (s : State) (r : Reg8) (v : Byte) : (s.setReg8 r v).sp = s.sp := by cases r <;> rfl
@[simp] theorem State.fault_setReg8 (s : State) (r : Reg8) (v : Byte) : (s.setReg8 r v).fault = s.fault := by cases r <;> rfl
@[simp] theorem State.mem_setReg8 (s : State) (r : Reg8) (v : Byte) : (s.setReg8 r v).mem = s.mem := by cases r <;> rfl
@[simp] theorem State.inputs_setReg8 (s : State) (r : Reg8) (v : Byte) : (s.setReg8 r v).inputs = s.inputs := by cases r <;> rfl
@[simp] theorem State.out_setReg8 (s : State) (r : Reg8) (v : Byte) : (s.setReg8 r v).out = s.out := by cases r <;> rfl

/-- A register read after a register write. -/
theorem State.reg8_setReg8 (s : State) (r r' : Reg8) (v : Byte) :
    (s.setReg8 r v).reg8 r' = if r' = r then v else s.reg8 r' := by
  cases r <;> cases r' <;> rfl

@[simp] theorem State.setReg16_bc (s : State) (v : Word16) :
    s.setReg16 .bc v = { s with b := highByte v, c := lowByte v } := rfl
@[simp] theorem State.setReg16_de (s : State) (v : Word16) :
    s.setReg16 .de v = { s with d := highByte v, e := lowByte v } := rfl
@[simp] theorem State.setReg16_hl (s : State) (v : Word16) :
    s.setReg16 .hl v = { s with h := highByte v, l := lowByte v } := rfl
@[simp] theorem State.setReg16_sp (s : State) (v : Word16) : s.setReg16 .sp v = { s with sp := v } := rfl
@[simp] theorem State.a_setReg16 (s : State) (p : Reg16) (v : Word16) : (s.setReg16 p v).a = s.a := by cases p <;> rfl
@[simp] theorem State.f_setReg16 (s : State) (p : Reg16) (v : Word16) : (s.setReg16 p v).f = s.f := by cases p <;> rfl
@[simp] theorem State.pc_setReg16 (s : State) (p : Reg16) (v : Word16) : (s.setReg16 p v).pc = s.pc := by cases p <;> rfl
@[simp] theorem State.fault_setReg16 (s : State) (p : Reg16) (v : Word16) : (s.setReg16 p v).fault = s.fault := by cases p <;> rfl
@[simp] theorem State.mem_setReg16 (s : State) (p : Reg16) (v : Word16) : (s.setReg16 p v).mem = s.mem := by cases p <;> rfl
@[simp] theorem State.inputs_setReg16 (s : State) (p : Reg16) (v : Word16) : (s.setReg16 p v).inputs = s.inputs := by cases p <;> rfl
@[simp] theorem State.out_setReg16 (s : State) (p : Reg16) (v : Word16) : (s.setReg16 p v).out = s.out := by cases p <;> rfl

/-! ## Register reads -/

@[simp] theorem State.reg8_a (s : State) : s.reg8 .a = s.a := rfl
@[simp] theorem State.reg8_b (s : State) : s.reg8 .b = s.b := rfl
@[simp] theorem State.reg8_c (s : State) : s.reg8 .c = s.c := rfl
@[simp] theorem State.reg8_d (s : State) : s.reg8 .d = s.d := rfl
@[simp] theorem State.reg8_e (s : State) : s.reg8 .e = s.e := rfl
@[simp] theorem State.reg8_h (s : State) : s.reg8 .h = s.h := rfl
@[simp] theorem State.reg8_l (s : State) : s.reg8 .l = s.l := rfl
@[simp] theorem State.reg16_bc (s : State) : s.reg16 .bc = pairOf s.b s.c := rfl
@[simp] theorem State.reg16_de (s : State) : s.reg16 .de = pairOf s.d s.e := rfl
@[simp] theorem State.reg16_hl (s : State) : s.reg16 .hl = pairOf s.h s.l := rfl
@[simp] theorem State.reg16_sp (s : State) : s.reg16 .sp = s.sp := rfl

/-! ## commitFlags -/

@[simp] theorem State.a_commitFlags (s : State) (u : FlagCommit) : (commitFlags u s).a = s.a := rfl
@[simp] theorem State.b_commitFlags (s : State) (u : FlagCommit) : (commitFlags u s).b = s.b := rfl
@[simp] theorem State.c_commitFlags (s : State) (u : FlagCommit) : (commitFlags u s).c = s.c := rfl
@[simp] theorem State.d_commitFlags (s : State) (u : FlagCommit) : (commitFlags u s).d = s.d := rfl
@[simp] theorem State.e_commitFlags (s : State) (u : FlagCommit) : (commitFlags u s).e = s.e := rfl
@[simp] theorem State.h_commitFlags (s : State) (u : FlagCommit) : (commitFlags u s).h = s.h := rfl
@[simp] theorem State.l_commitFlags (s : State) (u : FlagCommit) : (commitFlags u s).l = s.l := rfl
@[simp] theorem State.f_commitFlags (s : State) (u : FlagCommit) : (commitFlags u s).f = u.apply s.f := rfl
@[simp] theorem State.pc_commitFlags (s : State) (u : FlagCommit) : (commitFlags u s).pc = s.pc := rfl
@[simp] theorem State.sp_commitFlags (s : State) (u : FlagCommit) : (commitFlags u s).sp = s.sp := rfl
@[simp] theorem State.fault_commitFlags (s : State) (u : FlagCommit) : (commitFlags u s).fault = s.fault := rfl
@[simp] theorem State.mem_commitFlags (s : State) (u : FlagCommit) : (commitFlags u s).mem = s.mem := rfl
@[simp] theorem State.inputs_commitFlags (s : State) (u : FlagCommit) : (commitFlags u s).inputs = s.inputs := rfl
@[simp] theorem State.out_commitFlags (s : State) (u : FlagCommit) : (commitFlags u s).out = s.out := rfl

/-! ## logAccess -/

@[simp] theorem State.a_logAccess (s : State) (x : BusAccess) : (s.logAccess x).a = s.a := rfl
@[simp] theorem State.b_logAccess (s : State) (x : BusAccess) : (s.logAccess x).b = s.b := rfl
@[simp] theorem State.c_logAccess (s : State) (x : BusAccess) : (s.logAccess x).c = s.c := rfl
@[simp] theorem State.d_logAccess (s : State) (x : BusAccess) : (s.logAccess x).d = s.d := rfl
@[simp] theorem State.e_logAccess (s : State) (x : BusAccess) : (s.logAccess x).e = s.e := rfl
@[simp] theorem State.h_logAccess (s : State) (x : BusAccess) : (s.logAccess x).h = s.h := rfl
@[simp] theorem State.l_logAccess (s : State) (x : BusAccess) : (s.logAccess x).l = s.l := rfl
@[simp] theorem State.f_logAccess (s : State) (x : BusAccess) : (s.logAccess x).f = s.f := rfl
@[simp] theorem State.pc_logAccess (s : State) (x : BusAccess) : (s.logAccess x).pc = s.pc := rfl
@[simp] theorem State.sp_logAccess (s : State) (x : BusAccess) : (s.logAccess x).sp = s.sp := rfl
@[simp] theorem State.fault_logAccess (s : State) (x : BusAccess) : (s.logAccess x).fault = s.fault := rfl
@[simp] theorem State.mem_logAccess (s : State) (x : BusAccess) : (s.logAccess x).mem = s.mem := rfl
@[simp] theorem State.inputs_logAccess (s : State) (x : BusAccess) : (s.logAccess x).inputs = s.inputs := rfl
@[simp] theorem State.out_logAccess (s : State) (x : BusAccess) : (s.logAccess x).out = ⟨s.out.outcome, s.out.bus ++ [x]⟩ := rfl

/-! ## busWriteHL -/

@[simp] theorem State.a_busWriteHL (s : State) (v : Byte) : (s.busWriteHL v).a = s.a := rfl
@[simp] theorem State.b_busWriteHL (s : State) (v : Byte) : (s.busWriteHL v).b = s.b := rfl
@[simp] theorem State.c_busWriteHL (s : State) (v : Byte) : (s.busWriteHL v).c = s.c := rfl
@[simp] theorem State.d_busWriteHL (s : State) (v : Byte) : (s.busWriteHL v).d = s.d := rfl
@[simp] theorem State.e_busWriteHL (s : State) (v : Byte) : (s.busWriteHL v).e = s.e := rfl
@[simp] theorem State.h_busWriteHL (s : State) (v : Byte) : (s.busWriteHL v).h = s.h := rfl
@[simp] theorem State.l_busWriteHL (s : State) (v : Byte) : (s.busWriteHL v).l = s.l := rfl
@[simp] theorem State.f_busWriteHL (s : State) (v : Byte) : (s.busWriteHL v).f = s.f := rfl
@[simp] theorem State.pc_busWriteHL (s : State) (v : Byte) : (s.busWriteHL v).pc = s.pc := rfl
@[simp] theorem State.sp_busWriteHL (s : State) (v : Byte) : (s.busWriteHL v).sp = s.sp := rfl
@[simp] theorem State.fault_busWriteHL (s : State) (v : Byte) : (s.busWriteHL v).fault = s.fault := rfl
@[simp] theorem State.mem_busWriteHL (s : State) (v : Byte) : (s.busWriteHL v).mem = s.mem.write s.hlAddr.toNat v := rfl
@[simp] theorem State.inputs_busWriteHL (s : State) (v : Byte) : (s.busWriteHL v).inputs = s.inputs := rfl
@[simp] theorem State.out_busWriteHL (s : State) (v : Byte) : (s.busWriteHL v).out = ⟨s.out.outcome, s.out.bus ++ [.write s.hlAddr v]⟩ := rfl

/-! ## takeMalformed -/

@[simp] theorem State.a_takeMalformed (s : State) (k : BitVec 8) (t : BitVec 4) : (s.takeMalformed k t).a = s.a := rfl
@[simp] theorem State.b_takeMalformed (s : State) (k : BitVec 8) (t : BitVec 4) : (s.takeMalformed k t).b = s.b := rfl
@[simp] theorem State.c_takeMalformed (s : State) (k : BitVec 8) (t : BitVec 4) : (s.takeMalformed k t).c = s.c := rfl
@[simp] theorem State.d_takeMalformed (s : State) (k : BitVec 8) (t : BitVec 4) : (s.takeMalformed k t).d = s.d := rfl
@[simp] theorem State.e_takeMalformed (s : State) (k : BitVec 8) (t : BitVec 4) : (s.takeMalformed k t).e = s.e := rfl
@[simp] theorem State.h_takeMalformed (s : State) (k : BitVec 8) (t : BitVec 4) : (s.takeMalformed k t).h = s.h := rfl
@[simp] theorem State.l_takeMalformed (s : State) (k : BitVec 8) (t : BitVec 4) : (s.takeMalformed k t).l = s.l := rfl
@[simp] theorem State.f_takeMalformed (s : State) (k : BitVec 8) (t : BitVec 4) : (s.takeMalformed k t).f = s.f := rfl
@[simp] theorem State.pc_takeMalformed (s : State) (k : BitVec 8) (t : BitVec 4) : (s.takeMalformed k t).pc = s.pc := rfl
@[simp] theorem State.sp_takeMalformed (s : State) (k : BitVec 8) (t : BitVec 4) : (s.takeMalformed k t).sp = s.sp := rfl
@[simp] theorem State.fault_takeMalformed (s : State) (k : BitVec 8) (t : BitVec 4) : (s.takeMalformed k t).fault = .faulted k t := rfl
@[simp] theorem State.mem_takeMalformed (s : State) (k : BitVec 8) (t : BitVec 4) : (s.takeMalformed k t).mem = s.mem := rfl
@[simp] theorem State.inputs_takeMalformed (s : State) (k : BitVec 8) (t : BitVec 4) : (s.takeMalformed k t).inputs = s.inputs := rfl
@[simp] theorem State.out_takeMalformed (s : State) (k : BitVec 8) (t : BitVec 4) : (s.takeMalformed k t).out = ⟨.fault k t, []⟩ := rfl

/-! ## refuseRequest -/

@[simp] theorem State.a_refuseRequest (s : State) : (s.refuseRequest).a = s.a := rfl
@[simp] theorem State.b_refuseRequest (s : State) : (s.refuseRequest).b = s.b := rfl
@[simp] theorem State.c_refuseRequest (s : State) : (s.refuseRequest).c = s.c := rfl
@[simp] theorem State.d_refuseRequest (s : State) : (s.refuseRequest).d = s.d := rfl
@[simp] theorem State.e_refuseRequest (s : State) : (s.refuseRequest).e = s.e := rfl
@[simp] theorem State.h_refuseRequest (s : State) : (s.refuseRequest).h = s.h := rfl
@[simp] theorem State.l_refuseRequest (s : State) : (s.refuseRequest).l = s.l := rfl
@[simp] theorem State.f_refuseRequest (s : State) : (s.refuseRequest).f = s.f := rfl
@[simp] theorem State.pc_refuseRequest (s : State) : (s.refuseRequest).pc = s.pc := rfl
@[simp] theorem State.sp_refuseRequest (s : State) : (s.refuseRequest).sp = s.sp := rfl
@[simp] theorem State.fault_refuseRequest (s : State) : (s.refuseRequest).fault = s.fault := rfl
@[simp] theorem State.mem_refuseRequest (s : State) : (s.refuseRequest).mem = s.mem := rfl
@[simp] theorem State.inputs_refuseRequest (s : State) : (s.refuseRequest).inputs = s.inputs := rfl
@[simp] theorem State.out_refuseRequest (s : State) : (s.refuseRequest).out = ⟨.refused, []⟩ := rfl

/-! ## applyReset -/

@[simp] theorem State.a_applyReset (s : State) : (s.applyReset).a = 0 := rfl
@[simp] theorem State.b_applyReset (s : State) : (s.applyReset).b = 0 := rfl
@[simp] theorem State.c_applyReset (s : State) : (s.applyReset).c = 0 := rfl
@[simp] theorem State.d_applyReset (s : State) : (s.applyReset).d = 0 := rfl
@[simp] theorem State.e_applyReset (s : State) : (s.applyReset).e = 0 := rfl
@[simp] theorem State.h_applyReset (s : State) : (s.applyReset).h = 0 := rfl
@[simp] theorem State.l_applyReset (s : State) : (s.applyReset).l = 0 := rfl
@[simp] theorem State.f_applyReset (s : State) : (s.applyReset).f = ⟨false, false, false, false⟩ := rfl
@[simp] theorem State.pc_applyReset (s : State) : (s.applyReset).pc = 0 := rfl
@[simp] theorem State.sp_applyReset (s : State) : (s.applyReset).sp = 0 := rfl
@[simp] theorem State.fault_applyReset (s : State) : (s.applyReset).fault = .none := rfl
@[simp] theorem State.mem_applyReset (s : State) : (s.applyReset).mem = s.mem := rfl
@[simp] theorem State.inputs_applyReset (s : State) : (s.applyReset).inputs = s.inputs := rfl
@[simp] theorem State.out_applyReset (s : State) : (s.applyReset).out = ⟨.reset, []⟩ := rfl

/-! ## beginStep -/

@[simp] theorem State.a_beginStep (s : State) (rest : List Request) : (s.beginStep rest).a = s.a := rfl
@[simp] theorem State.b_beginStep (s : State) (rest : List Request) : (s.beginStep rest).b = s.b := rfl
@[simp] theorem State.c_beginStep (s : State) (rest : List Request) : (s.beginStep rest).c = s.c := rfl
@[simp] theorem State.d_beginStep (s : State) (rest : List Request) : (s.beginStep rest).d = s.d := rfl
@[simp] theorem State.e_beginStep (s : State) (rest : List Request) : (s.beginStep rest).e = s.e := rfl
@[simp] theorem State.h_beginStep (s : State) (rest : List Request) : (s.beginStep rest).h = s.h := rfl
@[simp] theorem State.l_beginStep (s : State) (rest : List Request) : (s.beginStep rest).l = s.l := rfl
@[simp] theorem State.f_beginStep (s : State) (rest : List Request) : (s.beginStep rest).f = s.f := rfl
@[simp] theorem State.pc_beginStep (s : State) (rest : List Request) : (s.beginStep rest).pc = s.pc := rfl
@[simp] theorem State.sp_beginStep (s : State) (rest : List Request) : (s.beginStep rest).sp = s.sp := rfl
@[simp] theorem State.fault_beginStep (s : State) (rest : List Request) : (s.beginStep rest).fault = s.fault := rfl
@[simp] theorem State.mem_beginStep (s : State) (rest : List Request) : (s.beginStep rest).mem = s.mem := rfl
@[simp] theorem State.inputs_beginStep (s : State) (rest : List Request) : (s.beginStep rest).inputs = rest := rfl
@[simp] theorem State.out_beginStep (s : State) (rest : List Request) : (s.beginStep rest).out = ⟨.idle, []⟩ := rfl

/-! ## send -/

@[simp] theorem State.a_send (s : State) (w : DIW) : (s.send w).a = s.a := rfl
@[simp] theorem State.b_send (s : State) (w : DIW) : (s.send w).b = s.b := rfl
@[simp] theorem State.c_send (s : State) (w : DIW) : (s.send w).c = s.c := rfl
@[simp] theorem State.d_send (s : State) (w : DIW) : (s.send w).d = s.d := rfl
@[simp] theorem State.e_send (s : State) (w : DIW) : (s.send w).e = s.e := rfl
@[simp] theorem State.h_send (s : State) (w : DIW) : (s.send w).h = s.h := rfl
@[simp] theorem State.l_send (s : State) (w : DIW) : (s.send w).l = s.l := rfl
@[simp] theorem State.f_send (s : State) (w : DIW) : (s.send w).f = s.f := rfl
@[simp] theorem State.pc_send (s : State) (w : DIW) : (s.send w).pc = s.pc := rfl
@[simp] theorem State.sp_send (s : State) (w : DIW) : (s.send w).sp = s.sp := rfl
@[simp] theorem State.fault_send (s : State) (w : DIW) : (s.send w).fault = s.fault := rfl
@[simp] theorem State.mem_send (s : State) (w : DIW) : (s.send w).mem = s.mem := rfl
@[simp] theorem State.inputs_send (s : State) (w : DIW) : (s.send w).inputs = execRequest w :: s.inputs := rfl
@[simp] theorem State.out_send (s : State) (w : DIW) : (s.send w).out = s.out := rfl

/-! ## Reading the operand at `(HL)` -/

@[simp] theorem State.busReadHL_fst (s : State) : s.busReadHL.1 = s.hlByte := rfl
@[simp] theorem State.busReadHL_snd (s : State) : s.busReadHL.2 = s.logAccess (.read s.hlAddr s.hlByte) := rfl
@[simp] theorem State.hlAddr_logAccess (s : State) (x : BusAccess) : (s.logAccess x).hlAddr = s.hlAddr := rfl
@[simp] theorem State.hlByte_logAccess (s : State) (x : BusAccess) : (s.logAccess x).hlByte = s.hlByte := rfl
@[simp] theorem State.reg8_logAccess (s : State) (x : BusAccess) (r : Reg8) : (s.logAccess x).reg8 r = s.reg8 r := by
  cases r <;> rfl
@[simp] theorem State.reg8_commitFlags (s : State) (u : FlagCommit) (r : Reg8) :
    (commitFlags u s).reg8 r = s.reg8 r := by cases r <;> rfl
@[simp] theorem State.reg8_busWriteHL (s : State) (v : Byte) (r : Reg8) : (s.busWriteHL v).reg8 r = s.reg8 r := by
  cases r <;> rfl
@[simp] theorem State.withFetchWord_eq (s : State) (nbits w : Nat) :
    s.withFetchWord nbits w = s.send (BitVec.ofNat 24 (w % 2 ^ nbits)) := rfl

end Sys2Proof.Machine
end

