-- ==== Sys2Proof/Laws/Shapes.lean ====
section
/-! SUPPORT. What each shared operation does, said once: the operand resolver and the shapes of the commit mux
(40_execute.md rules R94 to R98), in the spec's terms of Safety.lean. Every instruction is one of these shapes. -/

namespace Sys2Proof.Machine

/-- A pair as an integer, high register first (10_state.md rule R22). -/
theorem pairOf_toNat (hi lo : Byte) : (pairOf hi lo).toNat = hi.toNat * 256 + lo.toNat := by
  have hlo := lo.isLt
  simp only [pairOf, BitVec.toNat_append]
  rw [← Nat.shiftLeft_add_eq_or_of_lt hlo, Nat.shiftLeft_eq]

theorem State.hlAddr_toNat (s : State) : s.hlAddr.toNat = s.h.toNat * 256 + s.l.toNat := pairOf_toNat s.h s.l

theorem State.hlAddr_eq (s : State) : s.hlAddr = s.h ++ s.l := rfl

theorem State.hlByte_eq (s : State) : s.hlByte = s.operandValue (.target .mhl) := by
  simp only [State.hlByte, State.hlAddr_toNat, State.operandValue]

theorem State.reg16_toNat (s : State) (p : Reg16) : (s.reg16 p).toNat = s.pairValue p := by
  cases p <;> simp [State.pairValue, pairOf_toNat]

@[simp] theorem State.withBus_nil (s : State) : s.withBus [] = s := by
  simp [State.withBus]

@[simp] theorem State.withBus_single (s : State) (x : BusAccess) : s.withBus [x] = s.logAccess x := rfl

/-- The resolver reads the operand's value. -/
theorem readOp8_value (o : Operand8) (s : State) : (readOp8 o s).1 = s.operandValue o := by
  match o with
  | .target (.reg _) => rfl
  | .target .mhl => exact s.hlByte_eq
  | .imm _ => rfl

/-- The resolver changes nothing but the bus accesses. -/
theorem readOp8_state (o : Operand8) (s : State) : (readOp8 o s).2 = s.withBus (s.operandAccess o) := by
  match o with
  | .target (.reg _) => simp [readOp8, State.operandAccess]
  | .target .mhl =>
    simp only [readOp8, State.busReadHL_snd, State.operandAccess, State.withBus_single, State.hlAddr_eq,
      State.hlByte_eq, State.operandValue]
  | .imm _ => simp [readOp8, State.operandAccess]

/-- The commit to a target after it has been read. -/
theorem writeOp8_after_read (t : Target8) (v : Byte) (s : State) :
    writeOp8 t v (readOp8 (.target t) s).2 = s.withTarget v t := by
  cases t with
  | reg r => simp [readOp8, writeOp8, State.withTarget]
  | mhl =>
    simp [readOp8, writeOp8, State.withTarget, State.busWriteHL, State.logAccess, State.withBus, State.operandAccess,
      State.hlByte_eq, State.operandValue, State.busReadHL, State.hlAddr_eq, ← State.hlAddr_toNat]

/-- A 16-bit result write in integers (rule R23). -/
theorem State.setReg16_ofNat (s : State) (p : Reg16) (v : Nat) :
    s.setReg16 p (BitVec.ofNat 16 v) = s.withPair v p := by
  have hhi : highByte (BitVec.ofNat 16 v) = BitVec.ofNat 8 (v / 256) := by
    apply BitVec.eq_of_toNat_eq
    simp only [highByte, BitVec.extractLsb'_toNat, BitVec.toNat_ofNat, Nat.shiftRight_eq_div_pow]
    omega
  have hlo : lowByte (BitVec.ofNat 16 v) = BitVec.ofNat 8 v := by
    apply BitVec.eq_of_toNat_eq
    simp only [lowByte, BitVec.extractLsb'_toNat, BitVec.toNat_ofNat, Nat.shiftRight_eq_div_pow]
    omega
  cases p <;> simp [State.withPair, hhi, hlo]

/-! ## The shapes -/

theorem accumulate_eq (alu : Byte → AluOut) (o : Operand8) (s : State) :
    accumulate alu o s = .next { s.withBus (s.operandAccess o) with
      a := (alu (s.operandValue o)).result, f := (alu (s.operandValue o)).flags.apply s.f } := by
  simp [accumulate, readOp8_value, readOp8_state, commitFlags, State.withBus]

theorem testOperand_eq (alu : Byte → FlagCommit) (o : Operand8) (s : State) :
    testOperand alu o s = .next { s.withBus (s.operandAccess o) with f := (alu (s.operandValue o)).apply s.f } := by
  simp [testOperand, readOp8_value, readOp8_state, commitFlags, State.withBus]

theorem State.withTarget_f (s : State) (v : Byte) (t : Target8) : (s.withTarget v t).f = s.f := by
  cases t <;> simp [State.withTarget, State.withBus]

theorem modify8_eq (alu : Byte → AluOut) (t : Target8) (s : State) :
    modify8 alu t s = .next { s.withTarget (alu (s.operandValue (.target t))).result t with
      f := (alu (s.operandValue (.target t))).flags.apply s.f } := by
  simp [modify8, readOp8_value, writeOp8_after_read, commitFlags, State.withTarget_f]

theorem modify16_eq (alu : Word16 → Word16) (p : Reg16) (s : State) :
    modify16 alu p s = .next (s.setReg16 p (alu (s.reg16 p))) := rfl

theorem accumulate16_eq (alu : Word16 → Alu16Out) (p : Reg16) (s : State) :
    accumulate16 alu p s = .next { s.setReg16 .hl (alu (s.reg16 p)).result with
      f := (alu (s.reg16 p)).flags.apply s.f } := rfl

theorem modifyA_eq (alu : Byte → AluOut) (s : State) :
    modifyA alu s = .next { s with a := (alu s.a).result, f := (alu s.a).flags.apply s.f } := rfl

theorem flagsOnly_eq (u : FlagCommit) (s : State) : flagsOnly u s = .next { s with f := u.apply s.f } := rfl

/-- A commit, flag by flag (rule R98). -/
@[simp] theorem FlagCommit.apply_mk (z n h c : FlagSel) (f : Flags) :
    (FlagCommit.mk z n h c).apply f = ⟨z.apply f.z, n.apply f.n, h.apply f.h, c.apply f.c⟩ := rfl

@[simp] theorem FlagCommit.apply_keepAll (f : Flags) : FlagCommit.keepAll.apply f = f := rfl
@[simp] theorem FlagSel.apply_keep (b : Bool) : FlagSel.keep.apply b = b := rfl
@[simp] theorem FlagSel.apply_force0 (b : Bool) : FlagSel.force0.apply b = false := rfl
@[simp] theorem FlagSel.apply_force1 (b : Bool) : FlagSel.force1.apply b = true := rfl
@[simp] theorem FlagSel.apply_computed (x b : Bool) : (FlagSel.computed x).apply b = x := rfl

/-- The low nibble is the remainder by 16. -/
theorem lowNibble_eq (v : Byte) : lowNibble v = v.toNat % 16 := by
  simp only [lowNibble, BitVec.toNat_and]
  exact Nat.and_two_pow_sub_one_eq_mod v.toNat 4

/-- The low twelve bits are the remainder by 4096. -/
theorem lowTwelve_eq (v : Word16) : lowTwelve v = v.toNat % 4096 := by
  simp only [lowTwelve, BitVec.toNat_and]
  exact Nat.and_two_pow_sub_one_eq_mod v.toNat 12

/-- `bit(v, n) == 1` is the bit `n` of `v`. -/
theorem bitOf_eq (v : Byte) (n : Nat) : bitOf v n = v.getLsbD n := by
  rw [bitOf, Bool.eq_iff_iff, beq_iff_eq]
  constructor
  · intro h
    have := congrArg (fun x => x.getLsbD 0) h
    simpa using this
  · intro h
    apply BitVec.eq_of_getLsbD_eq
    intro i hi
    cases i <;> simp [h]

end Sys2Proof.Machine
end

