-- ==== Sys2Proof/Laws/Step.lean ====
section
/-! SUPPORT. What one step can do, said once: idle, reset, refusal, fault, or an instruction (40_execute.md rule R92). -/

namespace Sys2Proof.Machine

theorem step_idle {s : State} (h : s.inputs = []) : step s = .next (s.beginStep []) := by
  simp [step, stepPorts, h]

theorem step_reset {s : State} {q : Request} {rest : List Request} (h : s.inputs = q :: rest) (hr : q.rst = true) :
    step s = .next (s.beginStep rest).applyReset := by
  simp [step, stepPorts, h, serve, hr]

theorem step_noRequest {s : State} {q : Request} {rest : List Request} (h : s.inputs = q :: rest)
    (hr : q.rst = false) (hq : q.req = false) : step s = .next (s.beginStep rest) := by
  simp [step, stepPorts, h, serve, hr, hq]

theorem step_refused {s : State} {q : Request} {rest : List Request} (h : s.inputs = q :: rest)
    (hr : q.rst = false) (hq : q.req = true) (hf : s.fault ≠ .none) :
    step s = .next (s.beginStep rest).refuseRequest := by
  cases hs : s.fault with
  | none => exact absurd hs hf
  | faulted k t => simp [step, stepPorts, h, serve, hr, hq, transact, hs]

theorem step_malformed {s : State} {q : Request} {rest : List Request} {why : Malformed} (h : s.inputs = q :: rest)
    (hr : q.rst = false) (hq : q.req = true) (hf : s.fault = .none) (hd : decode q.diw = .malformed why) :
    step s = .next ((s.beginStep rest).takeMalformed (kindField q.diw) (tgtField q.diw)) := by
  simp [step, stepPorts, h, serve, hr, hq, transact, hf, hd]

theorem step_instruction {s : State} {q : Request} {rest : List Request} {i : Instr} (h : s.inputs = q :: rest)
    (hr : q.rst = false) (hq : q.req = true) (hf : s.fault = .none) (hd : decode q.diw = .ok i) :
    step s = acknowledge (exec i (s.beginStep rest)) := by
  simp [step, stepPorts, h, serve, hr, hq, transact, hf, hd]

/-- The inversion of a step: every way it can answer. -/
theorem step_cases (s : State) :
    (s.inputs = [] ∧ step s = .next (s.beginStep [])) ∨
    ∃ q rest, s.inputs = q :: rest ∧
      ((q.rst = true ∧ step s = .next (s.beginStep rest).applyReset) ∨
       (q.rst = false ∧ q.req = false ∧ step s = .next (s.beginStep rest)) ∨
       (q.rst = false ∧ q.req = true ∧ s.fault ≠ .none ∧ step s = .next (s.beginStep rest).refuseRequest) ∨
       (q.rst = false ∧ q.req = true ∧ s.fault = .none ∧ (∃ why, decode q.diw = .malformed why) ∧
         step s = .next ((s.beginStep rest).takeMalformed (kindField q.diw) (tgtField q.diw))) ∨
       (q.rst = false ∧ q.req = true ∧ s.fault = .none ∧
         ∃ i, decode q.diw = .ok i ∧ step s = acknowledge (exec i (s.beginStep rest)))) := by
  cases h : s.inputs with
  | nil => exact .inl ⟨rfl, step_idle h⟩
  | cons q rest =>
    refine .inr ⟨q, rest, rfl, ?_⟩
    cases hr : q.rst with
    | true => exact .inl ⟨rfl, step_reset h hr⟩
    | false =>
      cases hq : q.req with
      | false => exact .inr (.inl ⟨rfl, rfl, step_noRequest h hr hq⟩)
      | true =>
        by_cases hf : s.fault = .none
        · cases hd : decode q.diw with
          | malformed why =>
            exact .inr (.inr (.inr (.inl ⟨rfl, rfl, hf, ⟨why, rfl⟩, step_malformed h hr hq hf hd⟩)))
          | ok i => exact .inr (.inr (.inr (.inr ⟨rfl, rfl, hf, i, rfl, step_instruction h hr hq hf hd⟩)))
        · exact .inr (.inr (.inl ⟨rfl, rfl, hf, step_refused h hr hq hf⟩))

@[simp] theorem acknowledge_next (t : State) :
    acknowledge (.next t) = .next { t with out := ⟨.ok, t.out.bus⟩ } := rfl

/-- A run of no step. -/
@[simp] theorem runSteps_zero (s : State) : runSteps 0 s = .next s := rfl

/-- A run whose first step answers `t`. -/
theorem runSteps_succ {s t : State} (n : Nat) (h : step s = .next t) : runSteps (n + 1) s = runSteps n t := by
  have h' : Sys2Proof.core.step s = .next t := h
  simp only [runSteps, Host.Core.run, h']
  rfl

end Sys2Proof.Machine
end

