-- ==== Sys2Proof/Laws/Run.lean ====
section
/-! SUPPORT. Running a sequence of words (40_execute.md rules R90, R92): every instruction answers a next state that keeps
the latch and the waiting requests, so a run goes on word by word. -/

namespace Sys2Proof.Machine

/-- What every shape keeps: it answers a next state with the same latch and the same waiting requests. -/
def KeepsPorts (s : State) (o : Host.Outcome State Fault Refusal) : Prop :=
  ∃ t, o = .next t ∧ t.inputs = s.inputs ∧ t.fault = s.fault

theorem accumulate_keepsPorts (alu : Byte → AluOut) (o : Operand8) (s : State) : KeepsPorts s (accumulate alu o s) :=
  ⟨_, accumulate_eq alu o s, rfl, rfl⟩

theorem testOperand_keepsPorts (alu : Byte → FlagCommit) (o : Operand8) (s : State) :
    KeepsPorts s (testOperand alu o s) :=
  ⟨_, testOperand_eq alu o s, rfl, rfl⟩

theorem modify8_keepsPorts (alu : Byte → AluOut) (t : Target8) (s : State) : KeepsPorts s (modify8 alu t s) := by
  refine ⟨_, modify8_eq alu t s, ?_⟩
  cases t <;> simp [State.withTarget, State.withBus]

theorem modify16_keepsPorts (alu : Word16 → Word16) (p : Reg16) (s : State) : KeepsPorts s (modify16 alu p s) :=
  ⟨_, modify16_eq alu p s, by simp, by simp⟩

theorem accumulate16_keepsPorts (alu : Word16 → Alu16Out) (p : Reg16) (s : State) :
    KeepsPorts s (accumulate16 alu p s) :=
  ⟨_, accumulate16_eq alu p s, rfl, rfl⟩

theorem modifyA_keepsPorts (alu : Byte → AluOut) (s : State) : KeepsPorts s (modifyA alu s) :=
  ⟨_, modifyA_eq alu s, rfl, rfl⟩

theorem flagsOnly_keepsPorts (u : FlagCommit) (s : State) : KeepsPorts s (flagsOnly u s) :=
  ⟨_, flagsOnly_eq u s, rfl, rfl⟩

/-- Every instruction answers a next state with the same latch and the same waiting requests. -/
theorem exec_keepsPorts (i : Instr) (s : State) : KeepsPorts s (exec i s) := by
  cases i <;> first
    | exact accumulate_keepsPorts _ _ _
    | exact testOperand_keepsPorts _ _ _
    | exact modify8_keepsPorts _ _ _
    | exact modify16_keepsPorts _ _ _
    | exact accumulate16_keepsPorts _ _ _
    | exact modifyA_keepsPorts _ _
    | exact flagsOnly_keepsPorts _ _

@[simp] theorem runWords_nil (s : State) : runWords [] s = .next { s with inputs := [] } := rfl

/-- A run whose first word is the instruction `i` goes on from the state `i` leaves. -/
theorem runWords_cons {s t : State} {w : DIW} {ws : List DIW} {i : Instr} (hf : s.fault = .none)
    (hd : decode w = .ok i)
    (h : exec i { s with inputs := ws.map execRequest, out := ⟨.idle, []⟩ } = .next t) :
    runWords (w :: ws) s = runWords ws { t with out := ⟨.ok, t.out.bus⟩ } := by
  have hstep : step { s with inputs := (w :: ws).map execRequest } = .next { t with out := ⟨.ok, t.out.bus⟩ } := by
    have h0 := step_instruction (s := { s with inputs := (w :: ws).map execRequest }) (q := execRequest w)
      (rest := ws.map execRequest) (i := i) rfl rfl rfl hf hd
    rw [h0]
    exact congrArg acknowledge h
  have hin : t.inputs = ws.map execRequest := by
    obtain ⟨u, hu, hi, -⟩ := exec_keepsPorts i { s with inputs := ws.map execRequest, out := ⟨.idle, []⟩ }
    rw [h] at hu
    cases hu
    exact hi
  have hrun : runWords (w :: ws) s = runSteps ws.length { t with out := ⟨.ok, t.out.bus⟩ } := runSteps_succ _ hstep
  rw [hrun]
  simp only [runWords, ← hin]

end Sys2Proof.Machine
end

