-- ==== Sys2Proof/Tests/Slice0.lean ====
section
/-! SUPPORT. Tests. Expected values come from the spec: the words from the encoding column of 30_encoding.md section 4, the
results from 95_test_vectors.md. Then one witness for the hypotheses of each statement that has some. -/

namespace Sys2Proof.Tests

open Sys2Proof Sys2Proof.Machine

/-! ## WellFormed: each check refuses an ill-formed term (30_encoding.md rules R66, R69, R71) -/

theorem test_wf_bit_index : Instr.wellFormed (.bitR 8 .b) = false ∧ Instr.wellFormed (.setM 9) = false ∧
    Instr.wellFormed (.resetR 255 .a) = false ∧ Instr.wellFormed (.bitM 7) = true := by decide

theorem test_legal_alu8 : (Descriptor.mk .add .noTarget .absent).legal = false ∧
    (Descriptor.mk .add .f .absent).legal = false ∧ (Descriptor.mk .add .b (.imm8 0)).legal = false ∧
    (Descriptor.mk .add .bc .absent).legal = false ∧ (Descriptor.immediate .add 0xC6).legal = true := by decide

theorem test_legal_add16 : (Descriptor.mk .addhl .mhl .absent).legal = false ∧
    (Descriptor.mk .addhl .b .absent).legal = false ∧ (Descriptor.registerTargeted .addhl .sp).legal = true := by decide

theorem test_legal_incdec : (Descriptor.mk .inc .noTarget (.imm8 1)).legal = false ∧
    (Descriptor.mk .dec .noTarget .absent).legal = false ∧ (Descriptor.registerTargeted .inc .hl).legal = true := by
  decide

theorem test_legal_impl : (Descriptor.mk .ccf .a .absent).legal = false ∧
    (Descriptor.mk .cpl .noTarget (.imm8 1)).legal = false ∧
    (Descriptor.registerTargeted .scf .noTarget).legal = true := by decide

theorem test_legal_shift : (Descriptor.bitIndexed .rlc .b 1).legal = false ∧
    (Descriptor.mk .rlc .bc .absent).legal = false ∧ (Descriptor.registerTargeted .swap .mhl).legal = true := by decide

theorem test_legal_bitop : (Descriptor.mk .bit .b .absent).legal = false ∧
    (Descriptor.bitIndexed .bit .b 8).legal = false ∧ (Descriptor.bitIndexed .set .bc 7).legal = false ∧
    (Descriptor.mk .reset .noTarget (.imm8 1)).legal = false ∧ (Descriptor.bitIndexed .reset .a 3).legal = true := by
  decide

/-- V111 to V133: the malformed words. -/
theorem test_malformed_words :
    ([0x000000, 0x1E0000, 0xFF4CFF, 0x010C00, 0x010D00, 0x010E00, 0x011000, 0x010001, 0x01C000, 0x014000, 0x010800, 0x030600, 0x030000, 0x0A4C01, 0x0A0C00, 0x0C0700, 0x1D0C01, 0x128001, 0x120800, 0x1A0000, 0x1A8008, 0x1B8807, 0x1C4C01] : List DIW).all
      (fun w => (decode w).instr? == none && wfWord w == false) = true := by decide

/-! ## Decoding: a word of each row, bit by bit (30_encoding.md section 4) -/

theorem test_decode_add :
    decode 0b000000010000000000000000 = .ok (.addR .b) ∧
    decode 0b000000010000011000000000 = .ok (.addM) ∧
    decode 0b000000010100110011000111 = .ok (.addI 0xC7) := by decide

theorem test_decode_adc :
    decode 0b000000100000001100000000 = .ok (.adcR .e) ∧
    decode 0b000000100000011000000000 = .ok (.adcM) ∧
    decode 0b000000100100110011111010 = .ok (.adcI 0xFA) := by decide

theorem test_decode_sub :
    decode 0b000001000000011100000000 = .ok (.subR .a) ∧
    decode 0b000001000000011000000000 = .ok (.subM) ∧
    decode 0b000001000100110000101101 = .ok (.subI 0x2D) := by decide

theorem test_decode_sbc :
    decode 0b000001010000001000000000 = .ok (.sbcR .d) ∧
    decode 0b000001010000011000000000 = .ok (.sbcM) ∧
    decode 0b000001010100110001100000 = .ok (.sbcI 0x60) := by decide

theorem test_decode_cp :
    decode 0b000001100000010100000000 = .ok (.cpR .l) ∧
    decode 0b000001100000011000000000 = .ok (.cpM) ∧
    decode 0b000001100100110010010011 = .ok (.cpI 0x93) := by decide

theorem test_decode_and :
    decode 0b000001110000000100000000 = .ok (.andR .c) ∧
    decode 0b000001110000011000000000 = .ok (.andM) ∧
    decode 0b000001110100110011000110 = .ok (.andI 0xC6) := by decide

theorem test_decode_or :
    decode 0b000010000000010000000000 = .ok (.orR .h) ∧
    decode 0b000010000000011000000000 = .ok (.orM) ∧
    decode 0b000010000100110011111001 = .ok (.orI 0xF9) := by decide

theorem test_decode_xor :
    decode 0b000010010000000000000000 = .ok (.xorR .b) ∧
    decode 0b000010010000011000000000 = .ok (.xorM) ∧
    decode 0b000010010100110000101100 = .ok (.xorI 0x2C) := by decide

theorem test_decode_addhl :
    decode 0b000000110000100000000000 = .ok (.addhlP .bc) := by decide

theorem test_decode_inc :
    decode 0b000010100000010000000000 = .ok (.incR .h) ∧
    decode 0b000010100000011000000000 = .ok (.incM) ∧
    decode 0b000010100000101100000000 = .ok (.incP .sp) := by decide

theorem test_decode_dec :
    decode 0b000010110000000000000000 = .ok (.decR .b) ∧
    decode 0b000010110000011000000000 = .ok (.decM) ∧
    decode 0b000010110000101000000000 = .ok (.decP .hl) := by decide

theorem test_decode_ccf :
    decode 0b000011000000110000000000 = .ok (.ccf) := by decide

theorem test_decode_scf :
    decode 0b000011010000110000000000 = .ok (.scf) := by decide

theorem test_decode_rra :
    decode 0b000011100000110000000000 = .ok (.rra) := by decide

theorem test_decode_rla :
    decode 0b000011110000110000000000 = .ok (.rla) := by decide

theorem test_decode_rrca :
    decode 0b000100000000110000000000 = .ok (.rrca) := by decide

theorem test_decode_rlca :
    decode 0b000100010000110000000000 = .ok (.rlca) := by decide

theorem test_decode_rlc :
    decode 0b000100100000001000000000 = .ok (.rlcR .d) ∧
    decode 0b000100100000011000000000 = .ok (.rlcM) := by decide

theorem test_decode_rrc :
    decode 0b000100110000010000000000 = .ok (.rrcR .h) ∧
    decode 0b000100110000011000000000 = .ok (.rrcM) := by decide

theorem test_decode_rl :
    decode 0b000101000000011100000000 = .ok (.rlR .a) ∧
    decode 0b000101000000011000000000 = .ok (.rlM) := by decide

theorem test_decode_rr :
    decode 0b000101010000000100000000 = .ok (.rrR .c) ∧
    decode 0b000101010000011000000000 = .ok (.rrM) := by decide

theorem test_decode_sla :
    decode 0b000101100000001100000000 = .ok (.slaR .e) ∧
    decode 0b000101100000011000000000 = .ok (.slaM) := by decide

theorem test_decode_sra :
    decode 0b000101110000010100000000 = .ok (.sraR .l) ∧
    decode 0b000101110000011000000000 = .ok (.sraM) := by decide

theorem test_decode_srl :
    decode 0b000110000000000000000000 = .ok (.srlR .b) ∧
    decode 0b000110000000011000000000 = .ok (.srlM) := by decide

theorem test_decode_swap :
    decode 0b000110010000001000000000 = .ok (.swapR .d) ∧
    decode 0b000110010000011000000000 = .ok (.swapM) := by decide

theorem test_decode_bit :
    decode 0b000110101000010000000101 = .ok (.bitR 5 .h) ∧
    decode 0b000110101000011000000110 = .ok (.bitM 6) := by decide

theorem test_decode_set :
    decode 0b000110111000011100000111 = .ok (.setR 7 .a) ∧
    decode 0b000110111000011000000000 = .ok (.setM 0) := by decide

theorem test_decode_reset :
    decode 0b000111001000000100000001 = .ok (.resetR 1 .c) ∧
    decode 0b000111001000011000000010 = .ok (.resetM 2) := by decide

theorem test_decode_cpl :
    decode 0b000111010000110000000000 = .ok (.cpl) := by decide

theorem test_decodeTableWord : decodeTableWord 24 0x014CC6 = some (.addI 0xC6) ∧ decodeTableWord 24 0x010D00 = none ∧
    decodeTableWord 32 0x01014CC6 = none := by decide

/-- The opcode map has 60 rows and each row's own word is well formed (rule R75). -/
theorem test_opcodeMap_rows : opcodeMap.length = 60 ∧ opcodeMap.all (fun row => wfWord row.pattern) = true := by decide

/-! ## One step (95_test_vectors.md section 2) -/

/-- One step on the word `w` commits, with the `state` view, the listed memory and the bus accesses given, and PC and the
latch as they were. -/
def stepGives (s : State) (w : Nat) (view : BitVec 96) (mem : Memory) (bus : List BusAccess) : Bool :=
  match step (s.withFetchWord 24 w) with
  | .next t => t.stateView == view && t.mem == mem && t.out.bus == bus && t.ackPort && !t.faultPort
  | .fault _ => false
  | .refused _ => false

/-- V1: ADD B (R111). -/
theorem test_vector_v1_addR :
    stepGives { State.reset with a := 0x12, b := 0x34 } 0x010000 0x463400000000000000000000 [] [] = true := by decide

/-- V2: ADD A (R111). -/
theorem test_vector_v2_addR :
    stepGives { State.reset with a := 0x80 } 0x010700 0x000000000000009000000000 [] [] = true := by decide

/-- V3: ADD (HL) (R111). -/
theorem test_vector_v3_addM :
    stepGives { State.reset with a := 0x01, h := 0xC0, mem := [(0xC000, 0xFF)] } 0x010600 0x0000000000C000B000000000 [(0xC000, 0xFF)] [.read 0xC000 0xFF] = true := by decide

/-- V4: ADD #0x00 (R111). -/
theorem test_vector_v4_addI :
    stepGives { State.reset with a := 0x00 } 0x014C00 0x000000000000008000000000 [] [] = true := by decide

/-- V5: ADD #0x08 (R111). -/
theorem test_vector_v5_addI :
    stepGives { State.reset with a := 0x08 } 0x014C08 0x100000000000002000000000 [] [] = true := by decide

/-- V8: ADC #0x00 (R112). -/
theorem test_vector_v8_adcI :
    stepGives { State.reset with a := 0xFF, f := Flags.fromByte 0x10 } 0x024C00 0x00000000000000B000000000 [] [] = true := by decide

/-- V9: ADC #0x0F (R112). -/
theorem test_vector_v9_adcI :
    stepGives { State.reset with a := 0xE1, f := Flags.fromByte 0x10 } 0x024C0F 0xF10000000000002000000000 [] [] = true := by decide

/-- V11: ADC A (R112). -/
theorem test_vector_v11_adcR :
    stepGives { State.reset with a := 0x80, f := Flags.fromByte 0x10 } 0x020700 0x010000000000001000000000 [] [] = true := by decide

/-- V12: ADC D (R112). -/
theorem test_vector_v12_adcR :
    stepGives { State.reset with a := 0x3A, d := 0xC6 } 0x020200 0x000000C6000000B000000000 [] [] = true := by decide

/-- V13: ADC (HL) (R112). -/
theorem test_vector_v13_adcM :
    stepGives { State.reset with a := 0x10, h := 0xC0, f := Flags.fromByte 0x10, mem := [(0xC000, 0xFF)] } 0x020600 0x1000000000C0003000000000 [(0xC000, 0xFF)] [.read 0xC000 0xFF] = true := by decide

/-- V14: ADDHL BC (R113). -/
theorem test_vector_v14_addhlP :
    stepGives { State.reset with h := 0x8A, l := 0x23, b := 0x06, c := 0x05 } 0x030800 0x000605000090282000000000 [] [] = true := by decide

/-- V15: ADDHL HL (R113). -/
theorem test_vector_v15_addhlP :
    stepGives { State.reset with h := 0x8A, l := 0x23 } 0x030A00 0x000000000014463000000000 [] [] = true := by decide

/-- V21: SUB #0x0F (R114). -/
theorem test_vector_v21_subI :
    stepGives { State.reset with a := 0x3E } 0x044C0F 0x2F0000000000006000000000 [] [] = true := by decide

/-- V22: SUB #0x40 (R114). -/
theorem test_vector_v22_subI :
    stepGives { State.reset with a := 0x3E } 0x044C40 0xFE0000000000005000000000 [] [] = true := by decide

/-- V23: SUB E (R114). -/
theorem test_vector_v23_subR :
    stepGives { State.reset with a := 0x00, e := 0x01 } 0x040300 0xFF0000000100007000000000 [] [] = true := by decide

/-- V24: SUB A (R114). -/
theorem test_vector_v24_subR :
    stepGives { State.reset with a := 0x5A, f := Flags.fromByte 0x30 } 0x040700 0x00000000000000C000000000 [] [] = true := by decide

/-- V25: SUB (HL) (R114). -/
theorem test_vector_v25_subM :
    stepGives { State.reset with a := 0x00, h := 0xC0, mem := [(0xC000, 0xFF)] } 0x040600 0x0100000000C0007000000000 [(0xC000, 0xFF)] [.read 0xC000 0xFF] = true := by decide

/-- V26: SBC #0x2A (R115). -/
theorem test_vector_v26_sbcI :
    stepGives { State.reset with a := 0x3B, f := Flags.fromByte 0x10 } 0x054C2A 0x100000000000004000000000 [] [] = true := by decide

/-- V27: SBC #0xFF (R115). -/
theorem test_vector_v27_sbcI :
    stepGives { State.reset with a := 0x00, f := Flags.fromByte 0x10 } 0x054CFF 0x00000000000000F000000000 [] [] = true := by decide

/-- V29: SBC A (R115). -/
theorem test_vector_v29_sbcR :
    stepGives { State.reset with a := 0x5A, f := Flags.fromByte 0x10 } 0x050700 0xFF0000000000007000000000 [] [] = true := by decide

/-- V30: SBC A (R115). -/
theorem test_vector_v30_sbcR :
    stepGives { State.reset with a := 0x5A, f := Flags.fromByte 0x00 } 0x050700 0x00000000000000C000000000 [] [] = true := by decide

/-- V31: CP B (R116). -/
theorem test_vector_v31_cpR :
    stepGives { State.reset with a := 0x3C, b := 0x2F } 0x060000 0x3C2F00000000006000000000 [] [] = true := by decide

/-- V32: CP #0x40 (R116). -/
theorem test_vector_v32_cpI :
    stepGives { State.reset with a := 0x3C } 0x064C40 0x3C0000000000005000000000 [] [] = true := by decide

/-- V33: CP A (R116). -/
theorem test_vector_v33_cpR :
    stepGives { State.reset with a := 0x3C, f := Flags.fromByte 0x10 } 0x060700 0x3C000000000000C000000000 [] [] = true := by decide

/-- V34: CP (HL) (R116). -/
theorem test_vector_v34_cpM :
    stepGives { State.reset with a := 0xFF, h := 0xC0, mem := [(0xC000, 0xFF)] } 0x060600 0xFF00000000C000C000000000 [(0xC000, 0xFF)] [.read 0xC000 0xFF] = true := by decide

/-- V35: AND #0x3F (R130). -/
theorem test_vector_v35_andI :
    stepGives { State.reset with a := 0x5A } 0x074C3F 0x1A0000000000002000000000 [] [] = true := by decide

/-- V36: AND #0x00 (R130). -/
theorem test_vector_v36_andI :
    stepGives { State.reset with a := 0x5A, f := Flags.fromByte 0x10 } 0x074C00 0x00000000000000A000000000 [] [] = true := by decide

/-- V37: AND C (R130). -/
theorem test_vector_v37_andR :
    stepGives { State.reset with a := 0xF0, c := 0x0F } 0x070100 0x00000F00000000A000000000 [] [] = true := by decide

/-- V38: AND (HL) (R130). -/
theorem test_vector_v38_andM :
    stepGives { State.reset with a := 0x3C, h := 0xC0, mem := [(0xC000, 0xFF)] } 0x070600 0x3C00000000C0002000000000 [(0xC000, 0xFF)] [.read 0xC000 0xFF] = true := by decide

/-- V39: OR A (R131). -/
theorem test_vector_v39_orR :
    stepGives { State.reset with a := 0x00, f := Flags.fromByte 0x70 } 0x080700 0x000000000000008000000000 [] [] = true := by decide

/-- V40: OR #0x03 (R131). -/
theorem test_vector_v40_orI :
    stepGives { State.reset with a := 0x5A } 0x084C03 0x5B0000000000000000000000 [] [] = true := by decide

/-- V41: OR (HL) (R131). -/
theorem test_vector_v41_orM :
    stepGives { State.reset with a := 0x00, h := 0xC0, mem := [(0xC000, 0xFF)] } 0x080600 0xFF00000000C0000000000000 [(0xC000, 0xFF)] [.read 0xC000 0xFF] = true := by decide

/-- V42: XOR #0xFF (R132). -/
theorem test_vector_v42_xorI :
    stepGives { State.reset with a := 0x5A } 0x094CFF 0xA50000000000000000000000 [] [] = true := by decide

/-- V43: XOR H (R132). -/
theorem test_vector_v43_xorR :
    stepGives { State.reset with a := 0xA5, h := 0xA5 } 0x090400 0x0000000000A5008000000000 [] [] = true := by decide

/-- V44: XOR (HL) (R132). -/
theorem test_vector_v44_xorM :
    stepGives { State.reset with a := 0x0F, h := 0xC0, mem := [(0xC000, 0xFF)] } 0x090600 0xF000000000C0000000000000 [(0xC000, 0xFF)] [.read 0xC000 0xFF] = true := by decide

/-- V45: INC B (R140). -/
theorem test_vector_v45_incR :
    stepGives { State.reset with b := 0x0F } 0x0A0000 0x001000000000002000000000 [] [] = true := by decide

/-- V46: INC A (R140). -/
theorem test_vector_v46_incR :
    stepGives { State.reset with a := 0xFF, f := Flags.fromByte 0x10 } 0x0A0700 0x00000000000000B000000000 [] [] = true := by decide

/-- V48: INC (HL) (R140). -/
theorem test_vector_v48_incM :
    stepGives { State.reset with h := 0xC0, mem := [(0xC000, 0xFF)] } 0x0A0600 0x0000000000C000A000000000 [] [.read 0xC000 0xFF, .write 0xC000 0x00] = true := by decide

/-- V49: INC BC (R140). -/
theorem test_vector_v49_incP :
    stepGives { State.reset with b := 0xFF, c := 0xFF, f := Flags.fromByte 0xF0 } 0x0A0800 0x00000000000000F000000000 [] [] = true := by decide

/-- V50: INC DE (R140). -/
theorem test_vector_v50_incP :
    stepGives { State.reset with e := 0xFF } 0x0A0900 0x000000010000000000000000 [] [] = true := by decide

/-- V53: DEC A (R141). -/
theorem test_vector_v53_decR :
    stepGives { State.reset with a := 0x00, f := Flags.fromByte 0x10 } 0x0B0700 0xFF0000000000007000000000 [] [] = true := by decide

/-- V54: DEC C (R141). -/
theorem test_vector_v54_decR :
    stepGives { State.reset with c := 0x00, f := Flags.fromByte 0x00 } 0x0B0100 0x0000FF000000006000000000 [] [] = true := by decide

/-- V57: DEC (HL) (R141). -/
theorem test_vector_v57_decM :
    stepGives { State.reset with h := 0xC0, mem := [(0xC000, 0xFF)] } 0x0B0600 0x0000000000C0004000000000 [(0xC000, 0xFE)] [.read 0xC000 0xFF, .write 0xC000 0xFE] = true := by decide

/-- V58: DEC DE (R141). -/
theorem test_vector_v58_decP :
    stepGives { State.reset with f := Flags.fromByte 0x00 } 0x0B0900 0x000000FFFF00000000000000 [] [] = true := by decide

/-- V59: DEC BC (R141). -/
theorem test_vector_v59_decP :
    stepGives { State.reset with b := 0x01 } 0x0B0800 0x0000FF000000000000000000 [] [] = true := by decide

/-- V61: CCF (R150). -/
theorem test_vector_v61_ccf :
    stepGives { State.reset with f := Flags.fromByte 0xE0 } 0x0C0C00 0x000000000000009000000000 [] [] = true := by decide

/-- V62: CCF (R150). -/
theorem test_vector_v62_ccf :
    stepGives { State.reset with f := Flags.fromByte 0x90 } 0x0C0C00 0x000000000000008000000000 [] [] = true := by decide

/-- V63: SCF (R151). -/
theorem test_vector_v63_scf :
    stepGives { State.reset with f := Flags.fromByte 0x60 } 0x0D0C00 0x000000000000001000000000 [] [] = true := by decide

/-- V64: SCF (R151). -/
theorem test_vector_v64_scf :
    stepGives { State.reset with f := Flags.fromByte 0x90 } 0x0D0C00 0x000000000000009000000000 [] [] = true := by decide

/-- V65: RRA (R160). -/
theorem test_vector_v65_rra :
    stepGives { State.reset with a := 0x85, f := Flags.fromByte 0x10 } 0x0E0C00 0xC20000000000001000000000 [] [] = true := by decide

/-- V66: RRA (R160). -/
theorem test_vector_v66_rra :
    stepGives { State.reset with a := 0x85, f := Flags.fromByte 0x00 } 0x0E0C00 0x420000000000001000000000 [] [] = true := by decide

/-- V68: RLA (R161). -/
theorem test_vector_v68_rla :
    stepGives { State.reset with a := 0x85, f := Flags.fromByte 0x00 } 0x0F0C00 0x0A0000000000001000000000 [] [] = true := by decide

/-- V69: RLA (R161). -/
theorem test_vector_v69_rla :
    stepGives { State.reset with a := 0x85, f := Flags.fromByte 0x10 } 0x0F0C00 0x0B0000000000001000000000 [] [] = true := by decide

/-- V70: RRCA (R162). -/
theorem test_vector_v70_rrca :
    stepGives { State.reset with a := 0x01 } 0x100C00 0x800000000000001000000000 [] [] = true := by decide

/-- V71: RRCA (R162). -/
theorem test_vector_v71_rrca :
    stepGives { State.reset with a := 0x00, f := Flags.fromByte 0x80 } 0x100C00 0x000000000000000000000000 [] [] = true := by decide

/-- V72: RLCA (R163). -/
theorem test_vector_v72_rlca :
    stepGives { State.reset with a := 0x85 } 0x110C00 0x0B0000000000001000000000 [] [] = true := by decide

/-- V73: RLCA (R163). -/
theorem test_vector_v73_rlca :
    stepGives { State.reset with a := 0x80, f := Flags.fromByte 0x60 } 0x110C00 0x010000000000001000000000 [] [] = true := by decide

/-- V74: RLC B (R164). -/
theorem test_vector_v74_rlcR :
    stepGives { State.reset with b := 0x85 } 0x120000 0x000B00000000001000000000 [] [] = true := by decide

/-- V75: RLC B (R164). -/
theorem test_vector_v75_rlcR :
    stepGives { State.reset with b := 0x00, f := Flags.fromByte 0x10 } 0x120000 0x000000000000008000000000 [] [] = true := by decide

/-- V76: RLC (HL) (R164). -/
theorem test_vector_v76_rlcM :
    stepGives { State.reset with h := 0xC0, mem := [(0xC000, 0xFF)] } 0x120600 0x0000000000C0001000000000 [(0xC000, 0xFF)] [.read 0xC000 0xFF, .write 0xC000 0xFF] = true := by decide

/-- V77: RRC C (R165). -/
theorem test_vector_v77_rrcR :
    stepGives { State.reset with c := 0x3B } 0x130100 0x00009D000000001000000000 [] [] = true := by decide

/-- V78: RRC A (R165). -/
theorem test_vector_v78_rrcR :
    stepGives { State.reset with a := 0x85 } 0x130700 0xC20000000000001000000000 [] [] = true := by decide

/-- V79: RL D (R166). -/
theorem test_vector_v79_rlR :
    stepGives { State.reset with d := 0x85, f := Flags.fromByte 0x00 } 0x140200 0x0000000A0000001000000000 [] [] = true := by decide

/-- V80: RL D (R166). -/
theorem test_vector_v80_rlR :
    stepGives { State.reset with d := 0x85, f := Flags.fromByte 0x10 } 0x140200 0x0000000B0000001000000000 [] [] = true := by decide

/-- V82: RR E (R167). -/
theorem test_vector_v82_rrR :
    stepGives { State.reset with e := 0x85, f := Flags.fromByte 0x00 } 0x150300 0x000000004200001000000000 [] [] = true := by decide

/-- V83: RR E (R167). -/
theorem test_vector_v83_rrR :
    stepGives { State.reset with e := 0x85, f := Flags.fromByte 0x10 } 0x150300 0x00000000C200001000000000 [] [] = true := by decide

/-- V86: SLA H (R168). -/
theorem test_vector_v86_slaR :
    stepGives { State.reset with h := 0x85 } 0x160400 0x00000000000A001000000000 [] [] = true := by decide

/-- V87: SLA H (R168). -/
theorem test_vector_v87_slaR :
    stepGives { State.reset with h := 0xF0 } 0x160400 0x0000000000E0001000000000 [] [] = true := by decide

/-- V89: SRA L (R169). -/
theorem test_vector_v89_sraR :
    stepGives { State.reset with l := 0x85 } 0x170500 0x000000000000C21000000000 [] [] = true := by decide

/-- V90: SRA L (R169). -/
theorem test_vector_v90_sraR :
    stepGives { State.reset with l := 0x80 } 0x170500 0x000000000000C00000000000 [] [] = true := by decide

/-- V93: SRL A (R170). -/
theorem test_vector_v93_srlR :
    stepGives { State.reset with a := 0x85 } 0x180700 0x420000000000001000000000 [] [] = true := by decide

/-- V94: SRL A (R170). -/
theorem test_vector_v94_srlR :
    stepGives { State.reset with a := 0xFF, f := Flags.fromByte 0x10 } 0x180700 0x7F0000000000001000000000 [] [] = true := by decide

/-- V96: SWAP A (R171). -/
theorem test_vector_v96_swapR :
    stepGives { State.reset with a := 0x85 } 0x190700 0x580000000000000000000000 [] [] = true := by decide

/-- V97: SWAP B (R171). -/
theorem test_vector_v97_swapR :
    stepGives { State.reset with b := 0x00, f := Flags.fromByte 0x70 } 0x190000 0x000000000000008000000000 [] [] = true := by decide

/-- V98: SWAP (HL) (R171). -/
theorem test_vector_v98_swapM :
    stepGives { State.reset with h := 0xC0, mem := [(0xC000, 0xFF)] } 0x190600 0x0000000000C0000000000000 [(0xC000, 0xFF)] [.read 0xC000 0xFF, .write 0xC000 0xFF] = true := by decide

/-- V99: BIT 7, B (R180). -/
theorem test_vector_v99_bitR :
    stepGives { State.reset with b := 0x80 } 0x1A8007 0x008000000000002000000000 [] [] = true := by decide

/-- V100: BIT 0, B (R180). -/
theorem test_vector_v100_bitR :
    stepGives { State.reset with b := 0x80 } 0x1A8000 0x00800000000000A000000000 [] [] = true := by decide

/-- V102: BIT 3, (HL) (R180). -/
theorem test_vector_v102_bitM :
    stepGives { State.reset with h := 0xC0, mem := [(0xC000, 0xFF)] } 0x1A8603 0x0000000000C0002000000000 [(0xC000, 0xFF)] [.read 0xC000 0xFF] = true := by decide

/-- V103: SET 0, C (R181). -/
theorem test_vector_v103_setR :
    stepGives { State.reset with c := 0x00, f := Flags.fromByte 0xF0 } 0x1B8100 0x00000100000000F000000000 [] [] = true := by decide

/-- V104: SET 7, (HL) (R181). -/
theorem test_vector_v104_setM :
    stepGives { State.reset with h := 0xC0, mem := [(0xC000, 0xFF)] } 0x1B8607 0x0000000000C0000000000000 [(0xC000, 0xFF)] [.read 0xC000 0xFF, .write 0xC000 0xFF] = true := by decide

/-- V105: RESET 7, (HL) (R182). -/
theorem test_vector_v105_resetM :
    stepGives { State.reset with h := 0xC0, mem := [(0xC000, 0xFF)] } 0x1C8607 0x0000000000C0000000000000 [(0xC000, 0x7F)] [.read 0xC000 0xFF, .write 0xC000 0x7F] = true := by decide

/-- V106: RESET 3, A (R182). -/
theorem test_vector_v106_resetR :
    stepGives { State.reset with a := 0xFF } 0x1C8703 0xF70000000000000000000000 [] [] = true := by decide

/-- V107: RESET 5, D (R182). -/
theorem test_vector_v107_resetR :
    stepGives { State.reset with d := 0x00 } 0x1C8205 0x000000000000000000000000 [] [] = true := by decide

/-- V108: CPL (R190). -/
theorem test_vector_v108_cpl :
    stepGives { State.reset with a := 0x35 } 0x1D0C00 0xCA0000000000006000000000 [] [] = true := by decide

/-- V109: CPL (R190). -/
theorem test_vector_v109_cpl :
    stepGives { State.reset with a := 0xFF, f := Flags.fromByte 0x10 } 0x1D0C00 0x000000000000007000000000 [] [] = true := by decide

/-- V134: SBC (HL) (R115). -/
theorem test_vector_v134_sbcM :
    stepGives { State.reset with a := 0xFF, h := 0xC0, f := Flags.fromByte 0x10, mem := [(0xC000, 0xFF)] } 0x050600 0xFF00000000C0007000000000 [(0xC000, 0xFF)] [.read 0xC000 0xFF] = true := by decide

/-- V135: RRC (HL) (R165). -/
theorem test_vector_v135_rrcM :
    stepGives { State.reset with h := 0xC0, mem := [(0xC000, 0x81)] } 0x130600 0x0000000000C0001000000000 [(0xC000, 0xC0)] [.read 0xC000 0x81, .write 0xC000 0xC0] = true := by decide

/-- V136: RL (HL) (R166). -/
theorem test_vector_v136_rlM :
    stepGives { State.reset with h := 0xC0, mem := [(0xC000, 0x81)] } 0x140600 0x0000000000C0001000000000 [(0xC000, 0x02)] [.read 0xC000 0x81, .write 0xC000 0x02] = true := by decide

/-- V137: RR (HL) (R167). -/
theorem test_vector_v137_rrM :
    stepGives { State.reset with h := 0xC0, f := Flags.fromByte 0x10, mem := [(0xC000, 0x81)] } 0x150600 0x0000000000C0001000000000 [(0xC000, 0xC0)] [.read 0xC000 0x81, .write 0xC000 0xC0] = true := by decide

/-- V138: SLA (HL) (R168). -/
theorem test_vector_v138_slaM :
    stepGives { State.reset with h := 0xC0, mem := [(0xC000, 0x81)] } 0x160600 0x0000000000C0001000000000 [(0xC000, 0x02)] [.read 0xC000 0x81, .write 0xC000 0x02] = true := by decide

/-- V139: SRA (HL) (R169). -/
theorem test_vector_v139_sraM :
    stepGives { State.reset with h := 0xC0, mem := [(0xC000, 0x81)] } 0x170600 0x0000000000C0001000000000 [(0xC000, 0xC0)] [.read 0xC000 0x81, .write 0xC000 0xC0] = true := by decide

/-- V140: SRL (HL) (R170). -/
theorem test_vector_v140_srlM :
    stepGives { State.reset with h := 0xC0, mem := [(0xC000, 0x81)] } 0x180600 0x0000000000C0001000000000 [(0xC000, 0x40)] [.read 0xC000 0x81, .write 0xC000 0x40] = true := by decide

/-- V114, P5 step 2: the missing immediate sets the latch and changes nothing else. -/
theorem test_malformed_step :
    step ({ State.reset with a := 0x5A, f := Flags.fromByte 0x10 }.send 0x010C00) =
      .next { State.reset with a := 0x5A, f := Flags.fromByte 0x10, fault := .faulted 0x01 12,
                               out := ⟨.fault 0x01 12, []⟩ } := by rfl

/-- P5 step 4: a malformed word sent to a faulted CORE is refused; the latch keeps the first. -/
theorem test_refused_step :
    step ({ State.reset with a := 0x01, fault := .faulted 0x01 12 }.send 0x000000) =
      .next { State.reset with a := 0x01, fault := .faulted 0x01 12, out := ⟨.refused, []⟩ } := by rfl

/-- P5 step 5 and rule R227: reset clears the latch and the registers and wins over `req`. -/
theorem test_reset_step :
    step { State.reset with a := 0x01, mem := [(0xC000, 0x0F)], fault := .faulted 0x01 12,
                            inputs := [⟨true, true, 0x0A0700⟩] } =
      .next { State.reset with mem := [(0xC000, 0x0F)], out := ⟨.reset, []⟩ } := by rfl

/-- W1: the flags byte. -/
theorem test_flags_byte : Flags.toByte ⟨true, false, true, true⟩ = 0xB0 ∧
    Flags.fromByte 0x5F = ⟨false, true, false, true⟩ := by decide

/-- W2: the pairs. -/
theorem test_pairs : (State.reset.setReg16 .bc 0x1234).b = 0x12 ∧ (State.reset.setReg16 .bc 0x1234).c = 0x34 ∧
    { State.reset with h := 0xAB, l := 0xCD }.reg16 .hl = 0xABCD := by decide

/-- Memory: a listed byte reads back, and writing what an unlisted byte reads as removes the entry. -/
theorem test_memory_canonical : Memory.write [(1, 5), (3, 7)] 2 9 = [(1, 5), (2, 9), (3, 7)] ∧
    Memory.write [(1, 5), (3, 7)] 3 0 = [(1, 5)] ∧ Memory.wf [(1, 5), (3, 7)] = true ∧
    Memory.wf [(3, 5), (1, 7)] = false ∧ Memory.wf [(1, 0)] = false ∧ Memory.wf [(65536, 1)] = false := by decide

/-! ## Witnesses: the hypotheses of each statement that has some can be met -/

theorem witness_DecodeOfEncodeIsTheInstruction : Instr.wellFormed (.bitR 7 .a) = true := by decide

theorem witness_EncodeOfDecodeIsTheWord : decode 0x1A8707 = .ok (.bitR 7 .a) := by decide

theorem witness_DescriptorLegalExactlyWhenItsWordIs :
    ∀ n, (Descriptor.bitIndexed .bit .b 255).payload = .bitIndex n → n < 256 := by
  intro n h
  cases h
  decide

theorem witness_WellFormedWordSelectsExactlyOneRow :
    wfWord 0x1B8607 = true ∧ wfWord 0x1A8008 = false := by decide

theorem witness_MemoryReadsBackTheLatestWrite : Memory.wf [(0, 1), (65535, 255)] = true := by decide

theorem witness_CanonicalMemoriesAreEqualWhenTheyReadEqual :
    ∃ m m' : Memory, m.wf = true ∧ m'.wf = true ∧ ∀ addr < 65536, m.read addr = m'.read addr :=
  ⟨[(65535, 1)], [(65535, 1)], by decide, by decide, fun _ _ => rfl⟩

/-- A state that meets the hypotheses of StepRunsTheDecodedInstruction. -/
theorem witness_StepRunsTheDecodedInstruction :
    (State.reset.send 0x0A0700).inputs = [⟨false, true, 0x0A0700⟩] ∧ (State.reset.send 0x0A0700).fault = .none ∧
      decode 0x0A0700 = .ok (.incR .a) := by decide

theorem witness_MalformedWordOnlySetsTheFaultLatch :
    (State.reset.send 0x010C00).inputs = [⟨false, true, 0x010C00⟩] ∧ (State.reset.send 0x010C00).fault = .none ∧
      wfWord 0x010C00 = false := by decide

/-- A faulted state with two requests, neither a reset, one malformed. -/
theorem witness_FaultedCoreRefusesUntilReset :
    let s : State := { State.reset with fault := .faulted 0x01 12, inputs := [execRequest 0x0A0700, execRequest 0] }
    s.fault ≠ .none ∧ ∀ q ∈ s.inputs, q.rst = false := by decide

theorem witness_RefusalComesBeforeDecoding :
    let s : State := { State.reset with fault := .faulted 0xFF 15, inputs := [⟨false, true, 0⟩] }
    s.inputs = [⟨false, true, 0⟩] ∧ s.fault ≠ .none ∧ (State.reset.send 0).fault = .none ∧ wfWord 0 = false := by decide

theorem witness_ResetWinsAndKeepsMemory :
    let s : State := { State.reset with a := 1, mem := [(5, 5)], inputs := [⟨true, true, 0x0A0700⟩] }
    s.inputs = [⟨true, true, 0x0A0700⟩] := by decide

theorem witness_WithoutRequestCoreHoldsItsState :
    ({ State.reset with inputs := [⟨false, false, 0xFFFFFF⟩] } : State).inputs = [⟨false, false, 0xFFFFFF⟩] ∧
      State.reset.inputs = [] := by decide

theorem witness_InvariantHoldsAtReset : Memory.wf [(0xC000, 0x0F), (0xC001, 0xFF)] = true := by decide

/-- A state with the invariant in which a step writes memory. -/
theorem witness_StepKeepsTheInvariant :
    let s : State := { State.reset with h := 0xC0, mem := [(0xC000, 0xFF)], inputs := [execRequest 0x0A0600] }
    s.Inv ∧ step s = .next { s with mem := [], inputs := [], f := ⟨true, false, true, false⟩,
                                    out := ⟨.ok, [.read 0xC000 0xFF, .write 0xC000 0x00]⟩ } := by
  exact ⟨⟨by decide, by decide, by decide⟩, by rfl⟩

theorem witness_EveryRunningStateIsReachableFromReset :
    let s : State := { State.reset with a := 0x5A, sp := 0xFFFF, f := ⟨true, true, false, true⟩, mem := [(7, 7)] }
    s.fault = .none ∧ s.pc = 0 := by decide

/-- A canonical memory, and an instruction of each side of the first clause. -/
theorem witness_MemoryChangesOnlyAtHL :
    ({ State.reset with h := 0xC0, mem := [(0xC000, 0xFF)] } : State).mem.wf = true ∧
      accessTable .addM ≠ .readThenWrite ∧ accessTable .incM = .readThenWrite := by decide

theorem witness_RepeatedRotatesRestoreTheByte :
    ({ State.reset with h := 0xFF, l := 0xFF, mem := [(0xFFFF, 0x85)] } : State).mem.wf = true := by decide

/-- The bit index at both ends of its range. -/
theorem witness_BitTestsWithoutWriting : decode (bitWord 0x1A .mhl 0) = .ok (.bitM 0) ∧ 0 < 8 ∧
    decode (bitWord 0x1A .mhl 7) = .ok (.bitM 7) ∧ 7 < 8 := by decide

/-- The bit index at both ends of its range, and the bit at `n` and beside it. -/
theorem witness_SetAndResetWriteOneBit : decode (bitWord 0x1B (.reg .a) 0) = .ok (.setR 0 .a) ∧ 0 < 8 ∧
    decode (bitWord 0x1C (.reg .a) 7) = .ok (.resetR 7 .a) ∧ 7 < 8 ∧ 6 ≠ 7 := by decide

/-- A canonical memory; a malformed word and the step it takes (the second clause of BusAccessesFollowTheAccessTable). -/
theorem witness_BusAccessesFollowTheAccessTable :
    State.reset.mem.wf = true ∧ wfWord 0x030600 = false ∧
      step (State.reset.send 0x030600) = .next { State.reset with fault := .faulted 0x03 6, out := ⟨.fault 0x03 6, []⟩ } := by
  exact ⟨by decide, by decide, by rfl⟩

end Sys2Proof.Tests
end

section
/-! The two halves of a 16-bit value (10_state.md rules R22 to R24): what `highByte`, `lowByte` and `pairOf` are in
integers, and that splitting and joining undo each other. -/

namespace Sys2Proof.Machine

theorem highByte_toNat (v : Word16) : (highByte v).toNat = v.toNat / 256 := by
  have hv := v.isLt
  simp only [highByte, BitVec.extractLsb'_toNat, Nat.shiftRight_eq_div_pow]
  omega

theorem lowByte_toNat (v : Word16) : (lowByte v).toNat = v.toNat % 256 := by
  simp only [lowByte, BitVec.extractLsb'_toNat, Nat.shiftRight_zero]

theorem highByte_eq (v : Word16) : highByte v = BitVec.ofNat 8 (v.toNat / 256) := by
  rw [← highByte_toNat, BitVec.ofNat_toNat, BitVec.setWidth_eq]

theorem lowByte_eq (v : Word16) : lowByte v = BitVec.ofNat 8 (v.toNat % 256) := by
  rw [← lowByte_toNat, BitVec.ofNat_toNat, BitVec.setWidth_eq]

theorem pairOf_eq_ofNat (hi lo : Byte) : pairOf hi lo = BitVec.ofNat 16 (hi.toNat * 256 + lo.toNat) := by
  rw [← pairOf_toNat, BitVec.ofNat_toNat, BitVec.setWidth_eq]

theorem pairOf_zero : pairOf 0 0 = 0 := by decide

@[simp] theorem pairOf_highByte_lowByte (v : Word16) : pairOf (highByte v) (lowByte v) = v := by
  apply BitVec.eq_of_toNat_eq
  rw [pairOf_toNat, highByte_toNat, lowByte_toNat]
  omega

@[simp] theorem highByte_pairOf (hi lo : Byte) : highByte (pairOf hi lo) = hi := by
  have hlo := lo.isLt
  apply BitVec.eq_of_toNat_eq
  rw [highByte_toNat, pairOf_toNat]
  omega

@[simp] theorem lowByte_pairOf (hi lo : Byte) : lowByte (pairOf hi lo) = lo := by
  have hlo := lo.isLt
  apply BitVec.eq_of_toNat_eq
  rw [lowByte_toNat, pairOf_toNat]
  omega

/-- A 16-bit target reads as what was last written to it (rule R24, and `x[SP]`). -/
@[simp] theorem State.reg16_setReg16 (s : State) (p : Reg16) (v : Word16) : (s.setReg16 p v).reg16 p = v := by
  cases p <;> simp

end Sys2Proof.Machine
end

section
/-! The flags byte (10_state.md rules R26 to R28), bit by bit. -/

namespace Sys2Proof.Machine

theorem boolByte_getLsbD (b : Bool) (i : Nat) : (boolByte b).getLsbD i = (decide (i = 0) && b) := by
  cases b
  · simp [boolByte, b2i]
  · simp [boolByte, b2i, BitVec.getLsbD_one]

/-- Rule R26: Z, N, H, C stand at bits 7, 6, 5, 4, and no other bit is set. -/
theorem Flags.toByte_getLsbD (f : Flags) (i : Nat) (hi : i < 8) :
    f.toByte.getLsbD i =
      (decide (i = 7) && f.z || decide (i = 6) && f.n || decide (i = 5) && f.h || decide (i = 4) && f.c) := by
  simp only [Flags.toByte, BitVec.getLsbD_or, BitVec.getLsbD_shiftLeft, boolByte_getLsbD]
  interval_cases i <;> simp

/-- Rule R26 in integers; `f` has sixteen values. -/
theorem Flags.toByte_toNat (f : Flags) :
    f.toByte.toNat = 128 * f.z.toNat + 64 * f.n.toNat + 32 * f.h.toNat + 16 * f.c.toNat := by
  have table : ∀ z n h c : Bool,
      (Flags.mk z n h c).toByte.toNat = 128 * z.toNat + 64 * n.toNat + 32 * h.toNat + 16 * c.toNat := by decide
  exact table f.z f.n f.h f.c

theorem Flags.toByte_allClear : (Flags.mk false false false false).toByte = 0 := by decide

/-- Rule R27: the decoder takes Z, N, H, C from bits 7, 6, 5, 4. -/
theorem Flags.fromByte_eq (v : Byte) :
    Flags.fromByte v = ⟨v.getLsbD 7, v.getLsbD 6, v.getLsbD 5, v.getLsbD 4⟩ := by
  simp only [Flags.fromByte, bitOf_eq]

@[simp] theorem Flags.fromByte_toByte (f : Flags) : Flags.fromByte f.toByte = f := by
  rw [Flags.fromByte_eq, f.toByte_getLsbD 7 (by decide), f.toByte_getLsbD 6 (by decide),
    f.toByte_getLsbD 5 (by decide), f.toByte_getLsbD 4 (by decide)]
  simp

theorem Flags.toByte_lowNibble (f : Flags) : f.toByte &&& 0x0F = 0 := by
  apply BitVec.eq_of_getLsbD_eq
  intro i hi
  rw [BitVec.getLsbD_and, f.toByte_getLsbD i hi]
  interval_cases i <;> simp

theorem Flags.toByte_fromByte (v : Byte) : (Flags.fromByte v).toByte = v &&& 0xF0 := by
  apply BitVec.eq_of_getLsbD_eq
  intro i hi
  rw [BitVec.getLsbD_and, Flags.toByte_getLsbD _ i hi, Flags.fromByte_eq]
  interval_cases i <;> simp

end Sys2Proof.Machine
end

section
/-! Running with another PC (10_state.md rule R31, 40_execute.md rule R104): every read of the state is blind to PC, every
update commutes with a change of PC, so each shape of Operands.lean answers alike whatever PC holds. -/

namespace Sys2Proof.Machine

/-- The state with another PC, and nothing else changed. -/
def State.withPC (s : State) (pc : Word16) : State := { s with pc := pc }

section
variable (s : State) (pc : Word16)

@[simp] theorem State.reg8_withPC (r : Reg8) : (s.withPC pc).reg8 r = s.reg8 r := by cases r <;> rfl

@[simp] theorem State.reg16_withPC (p : Reg16) : (s.withPC pc).reg16 p = s.reg16 p := by cases p <;> rfl

@[simp] theorem State.operandValue_withPC (o : Operand8) : (s.withPC pc).operandValue o = s.operandValue o := by
  match o with
  | .target (.reg r) => exact s.reg8_withPC pc r
  | .target .mhl => rfl
  | .imm _ => rfl

@[simp] theorem State.operandAccess_withPC (o : Operand8) : (s.withPC pc).operandAccess o = s.operandAccess o := by
  match o with
  | .target (.reg _) => rfl
  | .target .mhl => rfl
  | .imm _ => rfl

theorem State.setReg8_withPC (r : Reg8) (v : Byte) : (s.withPC pc).setReg8 r v = (s.setReg8 r v).withPC pc := by
  cases r <;> rfl

theorem State.setReg16_withPC (p : Reg16) (v : Word16) :
    (s.withPC pc).setReg16 p v = (s.setReg16 p v).withPC pc := by
  cases p <;> rfl

theorem State.withTarget_withPC (v : Byte) (t : Target8) :
    (s.withPC pc).withTarget v t = (s.withTarget v t).withPC pc := by
  cases t with
  | reg r => exact s.setReg8_withPC pc r v
  | mhl => rfl

theorem State.pc_withTarget (v : Byte) (t : Target8) : (s.withTarget v t).pc = s.pc := by
  cases t with
  | reg r => exact s.pc_setReg8 r v
  | mhl => rfl

/-- The answer `o` from `s` is a next state with PC kept, and the answer `o'` from the other PC is that state but for PC. -/
def IgnoresPC (o o' : Host.Outcome State Fault Refusal) : Prop :=
  ∃ t, o = .next t ∧ t.pc = s.pc ∧ o' = .next (t.withPC pc)

theorem accumulate_ignoresPC (alu : Byte → AluOut) (o : Operand8) :
    IgnoresPC s pc (accumulate alu o s) (accumulate alu o (s.withPC pc)) := by
  refine ⟨_, accumulate_eq alu o s, rfl, ?_⟩
  rw [accumulate_eq, State.operandValue_withPC, State.operandAccess_withPC]
  rfl

theorem testOperand_ignoresPC (alu : Byte → FlagCommit) (o : Operand8) :
    IgnoresPC s pc (testOperand alu o s) (testOperand alu o (s.withPC pc)) := by
  refine ⟨_, testOperand_eq alu o s, rfl, ?_⟩
  rw [testOperand_eq, State.operandValue_withPC, State.operandAccess_withPC]
  rfl

theorem modify8_ignoresPC (alu : Byte → AluOut) (t : Target8) :
    IgnoresPC s pc (modify8 alu t s) (modify8 alu t (s.withPC pc)) := by
  refine ⟨_, modify8_eq alu t s, s.pc_withTarget _ t, ?_⟩
  rw [modify8_eq, State.operandValue_withPC, State.withTarget_withPC]
  rfl

theorem modify16_ignoresPC (alu : Word16 → Word16) (p : Reg16) :
    IgnoresPC s pc (modify16 alu p s) (modify16 alu p (s.withPC pc)) := by
  refine ⟨_, modify16_eq alu p s, s.pc_setReg16 p _, ?_⟩
  rw [modify16_eq, State.reg16_withPC, State.setReg16_withPC]

theorem accumulate16_ignoresPC (alu : Word16 → Alu16Out) (p : Reg16) :
    IgnoresPC s pc (accumulate16 alu p s) (accumulate16 alu p (s.withPC pc)) := by
  refine ⟨_, accumulate16_eq alu p s, rfl, ?_⟩
  rw [accumulate16_eq, State.reg16_withPC]
  rfl

theorem modifyA_ignoresPC (alu : Byte → AluOut) :
    IgnoresPC s pc (modifyA alu s) (modifyA alu (s.withPC pc)) :=
  ⟨_, modifyA_eq alu s, rfl, rfl⟩

theorem flagsOnly_ignoresPC (u : FlagCommit) :
    IgnoresPC s pc (flagsOnly u s) (flagsOnly u (s.withPC pc)) :=
  ⟨_, flagsOnly_eq u s, rfl, rfl⟩

/-- Every instruction is one of the shapes, and what it hands to its shape (A, HL, C) does not depend on PC. -/
theorem exec_ignoresPC (i : Instr) : IgnoresPC s pc (exec i s) (exec i (s.withPC pc)) := by
  cases i with
  | addR | addM | addI | adcR | adcM | adcI | subR | subM | subI | sbcR | sbcM | sbcI
  | andR | andM | andI | orR | orM | orI | xorR | xorM | xorI => exact accumulate_ignoresPC s pc _ _
  | cpR | cpM | cpI | bitR | bitM => exact testOperand_ignoresPC s pc _ _
  | addhlP => exact accumulate16_ignoresPC s pc _ _
  | incP | decP => exact modify16_ignoresPC s pc _ _
  | incR | incM | decR | decM | rlcR | rlcM | rrcR | rrcM | rlR | rlM | rrR | rrM
  | slaR | slaM | sraR | sraM | srlR | srlM | swapR | swapM
  | setR | setM | resetR | resetM => exact modify8_ignoresPC s pc _ _
  | rra | rla | rrca | rlca | cpl => exact modifyA_ignoresPC s pc _
  | ccf | scf => exact flagsOnly_ignoresPC s pc _

end

end Sys2Proof.Machine
end

section
/-! The statements of 10_state.md, settled. -/

namespace Sys2Proof.Proofs

open Sys2Proof Sys2Proof.Machine

/-- Settles O28: every instruction is one of seven shapes, and each of them ignores PC. -/
theorem noInstructionReadsOrWritesPC : Obligations.NoInstructionReadsOrWritesPC :=
  fun i s pc => exec_ignoresPC s pc i

/-- Settles O7: `highByte` and `lowByte` are quotient and remainder by 256, and `pairOf` joins what they split. -/
theorem pairViewsReadAndWriteTheirRegisters : Obligations.PairViewsReadAndWriteTheirRegisters := by
  refine ⟨fun s => ⟨s.reg16_toNat .bc, s.reg16_toNat .de, s.reg16_toNat .hl⟩, fun s v => ?_,
    fun s p v => s.reg16_setReg16 p v, fun s hi lo => ?_⟩
  · simp only [State.setReg16_bc, State.setReg16_de, State.setReg16_hl, ← highByte_eq, ← lowByte_eq, and_self]
  · simp only [← pairOf_eq_ofNat, State.setReg16_bc, State.setReg16_de, State.setReg16_hl, highByte_pairOf,
      lowByte_pairOf, and_self]

/-- Settles O8: the encoder by its table of sixteen rows, the decoder by its bits. -/
theorem flagsByteEncoderAndDecoder : Obligations.FlagsByteEncoderAndDecoder :=
  ⟨Flags.toByte_toNat, Flags.fromByte_eq⟩

/-- Settles O9: both sides of each law agree bit by bit. -/
theorem flagsByteRoundTrips : Obligations.FlagsByteRoundTrips :=
  ⟨fun f => ⟨f.fromByte_toByte, f.toByte_lowNibble⟩, Flags.toByte_fromByte⟩

/-- Settles O13: register by register, from the definition of the reset state. -/
theorem resetZeroesEveryRegister : Obligations.ResetZeroesEveryRegister := by
  intro initMem s
  have hreg8 : ∀ r : Reg8, s.reg8 r = 0 := by
    intro r
    cases r <;> rfl
  have hreg16 : ∀ p : Reg16, s.reg16 p = 0 := by
    intro p
    cases p with
    | bc | de | hl => exact pairOf_zero
    | sp => rfl
  exact ⟨hreg8, hreg16, rfl, rfl, rfl, rfl, rfl, rfl, Flags.toByte_allClear, rfl, rfl, rfl⟩

end Sys2Proof.Proofs
end

section
/-! The laws of canonical memories (20_memory.md rule R41): a read after a write, and that a canonical memory is fixed by
what it reads as. -/

namespace Sys2Proof.Machine

@[simp] theorem Memory.read_nil (addr : Nat) : Memory.read [] addr = Config.unlistedByte := rfl

@[simp] theorem Memory.read_cons_same (k : Nat) (v : Byte) (rest : Memory) : Memory.read ((k, v) :: rest) k = v :=
  if_pos rfl

theorem Memory.read_cons_of_ne {k addr : Nat} (v : Byte) (rest : Memory) (h : addr ≠ k) :
    Memory.read ((k, v) :: rest) addr = Memory.read rest addr :=
  if_neg h

/-- The first listed address is itself a lower bound. -/
theorem Memory.wfFrom_head {lo k : Nat} {v : Byte} {rest : Memory} (hm : Memory.wfFrom lo ((k, v) :: rest) = true) :
    Memory.wfFrom k ((k, v) :: rest) = true := by
  rw [Memory.wfFrom_cons] at hm ⊢
  exact ⟨le_rfl, hm.2⟩

theorem Memory.read_write {m : Memory} {lo : Nat} (hm : Memory.wfFrom lo m = true) (addr addr' : Nat) (v : Byte) :
    (m.write addr v).read addr' = if addr' = addr then v else m.read addr' := by
  induction m generalizing lo with
  | nil => by_cases hv : v = Config.unlistedByte <;> simp [Memory.write, Memory.read, hv]
  | cons x rest ih =>
    obtain ⟨k, w⟩ := x
    obtain ⟨-, -, -, hrest⟩ := Memory.wfFrom_cons.mp hm
    rcases Nat.lt_trichotomy addr k with hlt | rfl | hgt
    · have hunlisted : Memory.read ((k, w) :: rest) addr = Config.unlistedByte :=
        Memory.read_below (Memory.wfFrom_head hm) hlt
      by_cases hv : v = Config.unlistedByte
      · by_cases ha : addr' = addr <;> simp [Memory.write, hlt, hv, ha, hunlisted]
      · simp [Memory.write, hlt, hv, Memory.read]
    · have hunlisted : Memory.read rest addr = Config.unlistedByte := Memory.read_below hrest (Nat.lt_succ_self addr)
      by_cases hv : v = Config.unlistedByte <;> by_cases ha : addr' = addr <;>
        simp [Memory.write, hv, ha, hunlisted, Memory.read_cons_of_ne]
    · have hwrite : Memory.write ((k, w) :: rest) addr v = (k, w) :: Memory.write rest addr v := by
        simp [Memory.write, hgt.not_gt, hgt.ne']
      rw [hwrite]
      by_cases hk : addr' = k
      · subst hk
        simp [hgt.ne]
      · rw [Memory.read_cons_of_ne _ _ hk, Memory.read_cons_of_ne _ _ hk, ih hrest]

/-- Of two canonical memories that read the same, the second begins no later than the first: otherwise the first one's
head would read as unlisted. -/
theorem Memory.head_le_of_read_eq {lo lo' k k' : Nat} {v v' : Byte} {rest rest' : Memory}
    (hm : Memory.wfFrom lo ((k, v) :: rest) = true) (hm' : Memory.wfFrom lo' ((k', v') :: rest') = true)
    (h : ∀ addr < Config.addressSpace,
      Memory.read ((k, v) :: rest) addr = Memory.read ((k', v') :: rest') addr) : k' ≤ k := by
  obtain ⟨-, hk, hv, -⟩ := Memory.wfFrom_cons.mp hm
  by_contra hlt
  have hread := h k hk
  rw [Memory.read_cons_same, Memory.read_below (Memory.wfFrom_head hm') (Nat.lt_of_not_le hlt)] at hread
  exact hv hread

/-- A memory that lists something does not read like the empty one. -/
theorem Memory.exists_read_ne_unlisted {lo k : Nat} {v : Byte} {rest : Memory}
    (hm : Memory.wfFrom lo ((k, v) :: rest) = true) :
    ∃ addr < Config.addressSpace, Memory.read ((k, v) :: rest) addr ≠ Config.unlistedByte := by
  obtain ⟨-, hk, hv, -⟩ := Memory.wfFrom_cons.mp hm
  exact ⟨k, hk, by rwa [Memory.read_cons_same]⟩

theorem Memory.eq_of_read_eq {m m' : Memory} {lo : Nat} (hm : Memory.wfFrom lo m = true)
    (hm' : Memory.wfFrom lo m' = true) (h : ∀ addr < Config.addressSpace, m.read addr = m'.read addr) : m = m' := by
  induction m generalizing lo m' with
  | nil =>
    cases m' with
    | nil => rfl
    | cons x' rest' =>
      obtain ⟨addr, ha, hne⟩ := Memory.exists_read_ne_unlisted hm'
      exact absurd (h addr ha).symm hne
  | cons x rest ih =>
    obtain ⟨k, v⟩ := x
    cases m' with
    | nil =>
      obtain ⟨addr, ha, hne⟩ := Memory.exists_read_ne_unlisted hm
      exact absurd (h addr ha) hne
    | cons x' rest' =>
      obtain ⟨k', v'⟩ := x'
      obtain rfl : k = k' :=
        le_antisymm (Memory.head_le_of_read_eq hm' hm fun a ha => (h a ha).symm) (Memory.head_le_of_read_eq hm hm' h)
      obtain ⟨-, hk, -, hrest⟩ := Memory.wfFrom_cons.mp hm
      obtain ⟨-, -, -, hrest'⟩ := Memory.wfFrom_cons.mp hm'
      have hv : v = v' := by simpa using h k hk
      have htail : rest = rest' := by
        refine ih hrest hrest' fun addr ha => ?_
        by_cases hne : addr = k
        · have hbelow : addr < k + 1 := by omega
          rw [Memory.read_below hrest hbelow, Memory.read_below hrest' hbelow]
        · simpa only [Memory.read_cons_of_ne _ _ hne] using h addr ha
      rw [hv, htail]

end Sys2Proof.Machine
end

section
/-! The accesses of a transaction and what they do to memory (20_memory.md rule R43): each shape of Operands.lean makes the
accesses of its operand's class, so each instruction makes those of its row of the access table. -/

namespace Sys2Proof.Machine

/-- The class of an operand that is only read. -/
def readClass : Operand8 → AccessClass
  | .target (.reg _) => .noAccess
  | .target .mhl => .oneRead
  | .imm _ => .noAccess

/-- The class of a target that is read and then written. -/
def modifyClass : Target8 → AccessClass
  | .reg _ => .noAccess
  | .mhl => .readThenWrite

/-- From `s` to `t` the bus has seen the accesses of a class, all at `x[HL]` of `s`, and memory holds what was written. -/
def MakesAccesses (s t : State) : AccessClass → Prop
  | .noAccess => t.mem = s.mem ∧ t.out.bus = s.out.bus
  | .oneRead => t.mem = s.mem ∧ t.out.bus = s.out.bus ++ [.read s.hlAddr s.hlByte]
  | .readThenWrite => ∃ v, t.mem = s.mem.write s.hlAddr.toNat v ∧
      t.out.bus = s.out.bus ++ [.read s.hlAddr s.hlByte, .write s.hlAddr v]

/-- The answer `o` from `s` is a next state, reached with the accesses of the class `c`. -/
def AnswersWith (s : State) (c : AccessClass) (o : Host.Outcome State Fault Refusal) : Prop :=
  ∃ t, o = .next t ∧ MakesAccesses s t c

section
variable (s : State)

theorem State.operandAccess_mhl : s.operandAccess (.target .mhl) = [.read s.hlAddr s.hlByte] := by
  rw [s.hlByte_eq]
  rfl

theorem State.mem_withTarget_mhl (v : Byte) : (s.withTarget v .mhl).mem = s.mem.write s.hlAddr.toNat v := by
  rw [s.hlAddr_toNat]
  rfl

theorem State.bus_withTarget_mhl (v : Byte) :
    (s.withTarget v .mhl).out.bus = s.out.bus ++ [.read s.hlAddr s.hlByte, .write s.hlAddr v] := by
  rw [s.hlByte_eq]
  rfl

/-- An operand that is read adds its own access and leaves memory alone. -/
theorem makesAccesses_of_read {t : State} (o : Operand8) (hmem : t.mem = s.mem)
    (hbus : t.out.bus = s.out.bus ++ s.operandAccess o) : MakesAccesses s t (readClass o) := by
  match o with
  | .target (.reg _) => exact ⟨hmem, hbus.trans (List.append_nil _)⟩
  | .target .mhl => exact ⟨hmem, hbus.trans (by rw [s.operandAccess_mhl])⟩
  | .imm _ => exact ⟨hmem, hbus.trans (List.append_nil _)⟩

theorem accumulate_accesses (alu : Byte → AluOut) (o : Operand8) : AnswersWith s (readClass o) (accumulate alu o s) :=
  ⟨_, accumulate_eq alu o s, makesAccesses_of_read s o rfl rfl⟩

theorem testOperand_accesses (alu : Byte → FlagCommit) (o : Operand8) :
    AnswersWith s (readClass o) (testOperand alu o s) :=
  ⟨_, testOperand_eq alu o s, makesAccesses_of_read s o rfl rfl⟩

theorem modify8_accesses (alu : Byte → AluOut) (t : Target8) : AnswersWith s (modifyClass t) (modify8 alu t s) := by
  refine ⟨_, modify8_eq alu t s, ?_⟩
  cases t with
  | reg r => exact ⟨s.mem_setReg8 r _, congrArg Outputs.bus (s.out_setReg8 r _)⟩
  | mhl => exact ⟨_, s.mem_withTarget_mhl _, s.bus_withTarget_mhl _⟩

theorem modify16_accesses (alu : Word16 → Word16) (p : Reg16) : AnswersWith s .noAccess (modify16 alu p s) :=
  ⟨_, modify16_eq alu p s, s.mem_setReg16 p _, congrArg Outputs.bus (s.out_setReg16 p _)⟩

theorem accumulate16_accesses (alu : Word16 → Alu16Out) (p : Reg16) :
    AnswersWith s .noAccess (accumulate16 alu p s) :=
  ⟨_, accumulate16_eq alu p s, rfl, rfl⟩

theorem modifyA_accesses (alu : Byte → AluOut) : AnswersWith s .noAccess (modifyA alu s) :=
  ⟨_, modifyA_eq alu s, rfl, rfl⟩

theorem flagsOnly_accesses (u : FlagCommit) : AnswersWith s .noAccess (flagsOnly u s) :=
  ⟨_, flagsOnly_eq u s, rfl, rfl⟩

/-- Every instruction makes the accesses of its row of the access table. -/
theorem exec_accesses (i : Instr) : AnswersWith s (accessTable i) (exec i s) := by
  cases i with
  | addR | addI | adcR | adcI | subR | subI | sbcR | sbcI | andR | andI | orR | orI | xorR | xorI
  | addM | adcM | subM | sbcM | andM | orM | xorM => exact accumulate_accesses s _ _
  | cpR | cpI | bitR | cpM | bitM => exact testOperand_accesses s _ _
  | addhlP => exact accumulate16_accesses s _ _
  | incP | decP => exact modify16_accesses s _ _
  | incR | decR | rlcR | rrcR | rlR | rrR | slaR | sraR | srlR | swapR | setR | resetR
  | incM | decM | rlcM | rrcM | rlM | rrM | slaM | sraM | srlM | swapM | setM | resetM =>
    exact modify8_accesses s _ _
  | rra | rla | rrca | rlca | cpl => exact modifyA_accesses s _
  | ccf | scf => exact flagsOnly_accesses s _

end

/-! ## What follows from the accesses alone -/

section
variable {s t : State}

theorem MakesAccesses.mem_wf {c : AccessClass} (h : MakesAccesses s t c) (hwf : s.mem.wf = true) : t.mem.wf = true := by
  cases c with
  | noAccess | oneRead =>
    obtain ⟨hmem, -⟩ := h
    rwa [hmem]
  | readThenWrite =>
    obtain ⟨v, hmem, -⟩ := h
    rw [hmem]
    exact Memory.write_wf v hwf (word16_lt_addressSpace _)

theorem MakesAccesses.busShape {c : AccessClass} (h : MakesAccesses s t c) (hbus : s.out.bus = []) :
    busShape t.out.bus = true := by
  cases c with
  | noAccess | oneRead =>
    obtain ⟨-, ht⟩ := h
    rw [ht, hbus]
    rfl
  | readThenWrite =>
    obtain ⟨v, -, ht⟩ := h
    rw [ht, hbus]
    exact beq_self_eq_true s.hlAddr

theorem MakesAccesses.mem_eq {c : AccessClass} (h : MakesAccesses s t c) (hc : c ≠ .readThenWrite) : t.mem = s.mem := by
  cases c with
  | noAccess | oneRead => exact h.1
  | readThenWrite => exact absurd rfl hc

theorem MakesAccesses.read_of_ne {c : AccessClass} (h : MakesAccesses s t c) (hwf : s.mem.wf = true) {addr : Nat}
    (hne : addr ≠ s.hlAddr.toNat) : t.mem.read addr = s.mem.read addr := by
  cases c with
  | noAccess | oneRead => rw [h.1]
  | readThenWrite =>
    obtain ⟨v, hmem, -⟩ := h
    rw [hmem, Memory.read_write hwf, if_neg hne]

/-- The byte written is what memory then holds at `x[HL]`. -/
theorem MakesAccesses.bus_of_readThenWrite (h : MakesAccesses s t .readThenWrite) (hwf : s.mem.wf = true) :
    t.out.bus = s.out.bus ++ [.read s.hlAddr s.hlByte, .write s.hlAddr (t.mem.read s.hlAddr.toNat)] := by
  obtain ⟨v, hmem, hbus⟩ := h
  rw [hbus, hmem, Memory.read_write hwf, if_pos rfl]

end

end Sys2Proof.Machine
end

section
/-! A word that decodes satisfies rule R69 (30_encoding.md): it is the word of a descriptor, which resolves, so it is legal,
so its word is well formed. A malformed word therefore runs no instruction. -/

namespace Sys2Proof

section
variable {k : Kind} {t : Target} {p : Payload} {i : Instr}

theorem legal_of_alu8Form {onReg : Reg8 → Instr} {onMhl : Instr} {onImm : Byte → Instr} (hk : k.cls = .alu8)
    (h : alu8Form onReg onMhl onImm t p = .ok i) : (Descriptor.mk k t p).legal = true := by
  unfold alu8Form at h
  split at h
  case h_1 ht | h_2 ht => simp [Descriptor.legal, hk, ht]
  case h_3 =>
    split at h
    · simp_all [Descriptor.legal]
    · cases h
  case h_4 => cases h

theorem legal_of_add16Form {onPair : Reg16 → Instr} (hk : k.cls = .add16) (h : add16Form onPair t p = .ok i) :
    (Descriptor.mk k t p).legal = true := by
  unfold add16Form at h
  split at h
  case h_1 ht => simp [Descriptor.legal, hk, ht]
  case h_2 => cases h

theorem legal_of_incDecForm {onReg : Reg8 → Instr} {onMhl : Instr} {onPair : Reg16 → Instr} (hk : k.cls = .incdec)
    (h : incDecForm onReg onMhl onPair t p = .ok i) : (Descriptor.mk k t p).legal = true := by
  unfold incDecForm at h
  split at h
  case h_1 ht | h_2 ht => simp [Descriptor.legal, hk, ht]
  case h_3 ht => simp [Descriptor.legal, hk, ht]
  case h_4 => cases h

theorem legal_of_implForm {j : Instr} (hk : k.cls = .impl) (h : implForm j t p = .ok i) :
    (Descriptor.mk k t p).legal = true := by
  unfold implForm at h
  split at h
  case h_1 => simp [Descriptor.legal, hk]
  case h_2 => cases h

theorem legal_of_shiftForm {onReg : Reg8 → Instr} {onMhl : Instr} (hk : k.cls = .shift)
    (h : shiftForm onReg onMhl t p = .ok i) : (Descriptor.mk k t p).legal = true := by
  unfold shiftForm at h
  split at h
  case h_1 ht | h_2 ht => simp [Descriptor.legal, hk, ht]
  case h_3 => cases h

theorem legal_of_bitForm {onReg : Nat → Reg8 → Instr} {onMhl : Nat → Instr} (hk : k.cls = .bitop)
    (hp : ∀ n, p = .bitIndex n → n < 8) (h : bitForm onReg onMhl t p = .ok i) :
    (Descriptor.mk k t p).legal = true := by
  unfold bitForm at h
  split at h
  case h_1 ht | h_2 ht => simp [Descriptor.legal, hk, ht, bitIndexOk, hp _ rfl]
  case h_3 => cases h

/-- Rule R69 and the dispatch of rule R93 agree: what resolves, with a bit index that has a word, is legal. -/
theorem legal_of_resolve (hp : ∀ n, p = .bitIndex n → n < 8) (h : resolve ⟨k, t, p⟩ = .ok i) :
    (Descriptor.mk k t p).legal = true := by
  cases k with
  | add | adc | sub | sbc | cp | and | or | xor => exact legal_of_alu8Form rfl h
  | addhl => exact legal_of_add16Form rfl h
  | inc | dec => exact legal_of_incDecForm rfl h
  | ccf | scf | rra | rla | rrca | rlca | cpl => exact legal_of_implForm rfl h
  | rlc | rrc | rl | rr | sla | sra | srl | swap => exact legal_of_shiftForm rfl h
  | bit | set | reset => exact legal_of_bitForm rfl hp h

end

/-- The codes of the 8-bit targets are 0 to 7 (rule R63). -/
theorem targetCode_ule_of_target8 {t : Target} (h : t.target8.isSome = true) : (targetCode t).ule 7#4 = true := by
  revert h
  cases t <;> decide

/-- The codes of the 16-bit targets are 8 to 11 (rule R63). -/
theorem targetCode_range_of_reg16 {t : Target} (h : t.reg16.isSome = true) :
    (8#4).ule (targetCode t) = true ∧ (targetCode t).ule 11#4 = true := by
  revert h
  cases t <;> decide

theorem targetCode_ule_eleven {t : Target} (h : t.target8.isSome || t.reg16.isSome) :
    (targetCode t).ule 11#4 = true := by
  revert h
  cases t <;> decide

theorem wfWord_of_legal {d : Descriptor} (h : d.legal = true) : wfWord d.word = true := by
  rw [wfWord_word]
  unfold Descriptor.legal at h
  split at h
  case h_1 hk hp => simp [hk, hp, Payload.tag, Payload.value, targetCode_ule_of_target8 h]
  case h_2 hk hp => simp [hk, hp, Payload.tag, eq_of_beq h, targetCode]
  case h_3 hk hp => simp [hk, hp, Payload.tag, Payload.value, targetCode_range_of_reg16 h]
  case h_4 hk hp => simp [hk, hp, Payload.tag, Payload.value, targetCode_ule_eleven h]
  case h_5 hk hp => simp [hk, hp, Payload.tag, Payload.value, eq_of_beq h, targetCode]
  case h_6 hk hp => simp [hk, hp, Payload.tag, Payload.value, targetCode_ule_of_target8 h]
  case h_7 n hk hp =>
    obtain ⟨ht, hn⟩ := Bool.and_eq_true_iff.mp h
    simp [hk, hp, Payload.tag, Payload.value, targetCode_ule_of_target8 ht, bitIndex_high_bits hn]
  case h_8 => cases h

theorem bitIndex_lt_of_payloadOfFields {p : BitVec 2} {v : Byte} {n : Nat}
    (h : payloadOfFields p v = .ok (.bitIndex n)) : n < 8 := by
  unfold payloadOfFields at h
  split at h
  · split at h <;> cases h
  · cases h
  · split at h
    · cases h
      assumption
    · cases h
  · cases h

/-- A word whose fields name a kind, a target and a payload is the word of that descriptor (rule R61). -/
theorem word_of_fields {w : DIW} {k : Kind} {t : Target} {p : Payload} (hr : rsvField w = 0)
    (hk : kindOfCode (kindField w) = some k) (ht : targetOfCode (tgtField w) = some t)
    (hp : payloadOfFields (ptagField w) (pvalField w) = .ok p) : (Descriptor.mk k t p).word = w := by
  obtain ⟨htag, hval⟩ := payload_fields hp
  rw [Descriptor.word, kindCode_of_kindOfCode hk, targetCode_of_targetOfCode ht, htag, hval, ← hr,
    packFields_of_fields]

theorem wfWord_of_decode {w : DIW} {i : Instr} (h : decode w = .ok i) : wfWord w = true := by
  obtain ⟨k, t, p, hr, hk, ht, hp, hres⟩ := decode_ok_cases h
  have hlegal : (Descriptor.mk k t p).legal = true :=
    legal_of_resolve (fun n hn => bitIndex_lt_of_payloadOfFields (hn ▸ hp)) hres
  rw [← word_of_fields hr hk ht hp]
  exact wfWord_of_legal hlegal

namespace Machine

/-- A malformed word is refused or faults, and either way puts nothing on the bus. -/
theorem bus_of_malformed {s t : State} {w : DIW} (hw : wfWord w = false) (ht : step (s.send w) = .next t) :
    t.out.bus = [] := by
  have hin : (s.send w).inputs = execRequest w :: s.inputs := rfl
  by_cases hf : s.fault = .none
  · cases hd : decode w with
    | malformed why =>
      rw [step_malformed hin rfl rfl hf hd] at ht
      cases ht
      rfl
    | ok i =>
      rw [wfWord_of_decode hd] at hw
      cases hw
  · rw [step_refused hin rfl rfl hf] at ht
    cases ht
    rfl

end Machine

end Sys2Proof
end

section
/-! The invariant of Safety.lean, kept by each thing a step can do. -/

namespace Sys2Proof.Machine

theorem State.Inv.beginStep {s : State} (h : s.Inv) (rest : List Request) : (s.beginStep rest).Inv := by
  obtain ⟨hmem, hpc, -⟩ := h
  exact ⟨hmem, hpc, rfl⟩

theorem State.Inv.applyReset {s : State} (h : s.Inv) : s.applyReset.Inv := by
  obtain ⟨hmem, -, -⟩ := h
  exact ⟨hmem, rfl, rfl⟩

theorem State.Inv.refuseRequest {s : State} (h : s.Inv) (hf : s.fault ≠ .none) : s.refuseRequest.Inv := by
  obtain ⟨hmem, hpc, -⟩ := h
  refine ⟨hmem, hpc, ?_⟩
  simp [State.outputsAgree, State.running, hf]

theorem State.Inv.takeMalformed {s : State} (h : s.Inv) (kind : BitVec 8) (tgt : BitVec 4) :
    (s.takeMalformed kind tgt).Inv := by
  obtain ⟨hmem, hpc, -⟩ := h
  refine ⟨hmem, hpc, ?_⟩
  simp [State.outputsAgree]

/-- An instruction that starts with nothing on the bus and the latch none. -/
theorem State.Inv.acknowledge_exec {s t : State} (h : s.Inv) (hbus : s.out.bus = []) (hf : s.fault = .none) (i : Instr)
    (ht : acknowledge (exec i s) = .next t) : t.Inv := by
  obtain ⟨hmem, hpc, -⟩ := h
  obtain ⟨u, hu, haccess⟩ := exec_accesses s i
  have hfault : u.fault = s.fault := by
    obtain ⟨u', hu', -, hfault⟩ := exec_keepsPorts i s
    cases hu.symm.trans hu'
    exact hfault
  have hupc : u.pc = s.pc := by
    obtain ⟨u', hu', hupc, -⟩ := exec_ignoresPC s s.pc i
    cases hu.symm.trans hu'
    exact hupc
  rw [hu, acknowledge_next] at ht
  cases ht
  refine ⟨haccess.mem_wf hmem, hupc.trans hpc, ?_⟩
  simp [State.outputsAgree, State.running, hfault, hf, haccess.busShape hbus]

end Sys2Proof.Machine
end

section
/-! The statements of 20_memory.md, settled. -/

namespace Sys2Proof.Proofs

open Sys2Proof Sys2Proof.Machine

/-- Settles O22: each of the five things a step can do keeps the invariant; for an instruction, its accesses say what
memory and the bus hold. -/
theorem stepKeepsTheInvariant : Obligations.StepKeepsTheInvariant := by
  intro s t hinv ht
  have hbegin := hinv.beginStep
  obtain ⟨-, h⟩ | ⟨q, rest, -, ⟨-, h⟩ | ⟨-, -, h⟩ | ⟨-, -, hf, h⟩ | ⟨-, -, -, -, h⟩ | ⟨-, -, hf, i, -, h⟩⟩ :=
    step_cases s <;> rw [h] at ht
  · cases ht
    exact hbegin []
  · cases ht
    exact (hbegin rest).applyReset
  · cases ht
    exact hbegin rest
  · cases ht
    exact (hbegin rest).refuseRequest hf
  · cases ht
    exact (hbegin rest).takeMalformed _ _
  · exact (hbegin rest).acknowledge_exec rfl hf i ht

/-- Settles O11: the law of `Memory.read_write`, and the bus operations at `x[HL]` in its terms. -/
theorem memoryReadsBackTheLatestWrite : Obligations.MemoryReadsBackTheLatestWrite := by
  refine ⟨fun m addr addr' v hm => Memory.read_write hm addr addr' v, fun s => ⟨s.hlByte_eq, rfl⟩,
    fun s v hm => ⟨rfl, fun addr => ?_⟩⟩
  rw [State.mem_busWriteHL, Memory.read_write hm, s.hlAddr_toNat]

/-- Settles O12: both lists begin at the same address with the same byte, and so on down. -/
theorem canonicalMemoriesAreEqualWhenTheyReadEqual : Obligations.CanonicalMemoriesAreEqualWhenTheyReadEqual :=
  fun _ _ hm hm' h => Memory.eq_of_read_eq hm hm' h

/-- Settles O26: by the accesses of the instruction. -/
theorem memoryChangesOnlyAtHL : Obligations.MemoryChangesOnlyAtHL := by
  intro i s hwf
  obtain ⟨t, ht, haccess⟩ := exec_accesses s i
  exact ⟨t, ht, fun hc addr => by rw [haccess.mem_eq hc], fun addr hne => haccess.read_of_ne hwf hne⟩

/-- Settles O27: by the accesses of the instruction; the byte written is read back from memory. -/
theorem busAccessesFollowTheAccessTable : Obligations.BusAccessesFollowTheAccessTable := by
  refine ⟨fun i s hwf => ?_, fun s t w hw ht => bus_of_malformed hw ht⟩
  obtain ⟨t, ht, haccess⟩ := exec_accesses s i
  refine ⟨t, ht, ?_⟩
  generalize accessTable i = c at haccess ⊢
  cases c with
  | noAccess => exact haccess.2.trans (List.append_nil _).symm
  | oneRead => exact haccess.2
  | readThenWrite => exact haccess.bus_of_readThenWrite hwf

end Sys2Proof.Proofs
end

section
/-! Rule R69 (30_encoding.md) read from the word back to the descriptor: each test of `wfWord` on the target's code is the
test of the legality check on the target, and a legal descriptor resolves to the instruction that has it. -/

namespace Sys2Proof

theorem isSome_target8_eq (t : Target) : t.target8.isSome = (targetCode t).ule 7 := by
  cases t <;> rfl

theorem isSome_reg16_eq (t : Target) : t.reg16.isSome = ((8#4).ule (targetCode t) && (targetCode t).ule 11) := by
  cases t <;> rfl

theorem isSome_target8_or_reg16_eq (t : Target) :
    (t.target8.isSome || t.reg16.isSome) = (targetCode t).ule 11 := by
  cases t <;> rfl

theorem beq_noTarget_eq (t : Target) : (t == .noTarget) = (targetCode t == 12) := by
  cases t <;> rfl

/-- The converse of `bitIndex_high_bits`, on PVAL itself. -/
theorem toNat_lt_of_high_bits {v : Byte} (h : v.extractLsb' 3 5 = 0) : v.toNat < 8 := by
  have hv := v.isLt
  have hz : v.toNat / 8 % 32 = 0 := by
    simpa [BitVec.extractLsb'_toNat, Nat.shiftRight_eq_div_pow] using congrArg BitVec.toNat h
  omega

theorem bitIndexOk_of_high_bits {n : Nat} (hn : n < 256) (h : (BitVec.ofNat 8 n).extractLsb' 3 5 = 0) :
    bitIndexOk n = true := by
  have hlt := toNat_lt_of_high_bits h
  rw [BitVec.toNat_ofNat, Nat.mod_eq_of_lt hn] at hlt
  exact decide_eq_true hlt

/-- The converse of `wfWord_of_legal`: the payload's tag leaves the part of rule R69 that speaks of that payload. -/
theorem legal_of_wfWord_word {d : Descriptor} (hn : ∀ n, d.payload = .bitIndex n → n < 256)
    (h : wfWord d.word = true) : d.legal = true := by
  obtain ⟨k, t, p⟩ := d
  rw [wfWord_word] at h
  simp only [Descriptor.legal, isSome_target8_or_reg16_eq]
  simp only [isSome_target8_eq, isSome_reg16_eq, beq_noTarget_eq]
  generalize k.cls = c at h ⊢
  cases p with
  | absent | imm8 =>
    cases c <;> simp_all [Payload.tag, Payload.value, ptagAbsent, ptagImm8, ptagBitIndex]
  | bitIndex n =>
    have hbit := bitIndexOk_of_high_bits (hn n rfl)
    cases c <;> simp_all [Payload.tag, Payload.value, ptagAbsent, ptagImm8, ptagBitIndex]

@[simp] theorem target8_target (r : Reg8) : r.target.target8 = some (.reg r) := by
  cases r <;> rfl

@[simp] theorem target8_target16 (q : Reg16) : q.target.target8 = none := by
  cases q <;> rfl

@[simp] theorem reg16_target16 (q : Reg16) : q.target.reg16 = some q := by
  cases q <;> rfl

/-- An 8-bit target is a register's or `(HL)` (rule R63, codes 0 to 7). -/
theorem target8_cases {t : Target} (h : t.target8.isSome = true) : (∃ r : Reg8, t = r.target) ∨ t = .mhl := by
  cases t with
  | b => exact .inl ⟨.b, rfl⟩
  | c => exact .inl ⟨.c, rfl⟩
  | d => exact .inl ⟨.d, rfl⟩
  | e => exact .inl ⟨.e, rfl⟩
  | h => exact .inl ⟨.h, rfl⟩
  | l => exact .inl ⟨.l, rfl⟩
  | a => exact .inl ⟨.a, rfl⟩
  | mhl => exact .inr rfl
  | bc | de | hl | sp | noTarget | f => cases h

/-- A 16-bit target is a 16-bit register's (rule R63, codes 8 to 11). -/
theorem reg16_cases {t : Target} (h : t.reg16.isSome = true) : ∃ q : Reg16, t = q.target := by
  cases t with
  | bc => exact ⟨.bc, rfl⟩
  | de => exact ⟨.de, rfl⟩
  | hl => exact ⟨.hl, rfl⟩
  | sp => exact ⟨.sp, rfl⟩
  | b | c | d | e | h | l | mhl | a | noTarget | f => cases h

section
variable {k : Kind} {t : Target} {p : Payload} {onReg : Reg8 → Instr} {onMhl : Instr}

theorem alu8Form_of_legal {onImm : Byte → Instr} (hk : k.cls = .alu8)
    (hreg : ∀ r, (onReg r).descriptor = .registerTargeted k r.target)
    (hmhl : onMhl.descriptor = .registerTargeted k .mhl) (himm : ∀ v, (onImm v).descriptor = .immediate k v)
    (h : (Descriptor.mk k t p).legal = true) :
    ∃ i, alu8Form onReg onMhl onImm t p = .ok i ∧ i.descriptor = ⟨k, t, p⟩ := by
  cases p with
  | absent =>
    simp only [Descriptor.legal, hk] at h
    rcases target8_cases h with ⟨r, rfl⟩ | rfl
    · exact ⟨onReg r, by simp [alu8Form], hreg r⟩
    · exact ⟨onMhl, rfl, hmhl⟩
  | imm8 v =>
    simp only [Descriptor.legal, hk, beq_iff_eq] at h
    subst h
    exact ⟨onImm v, rfl, himm v⟩
  | bitIndex n => simp [Descriptor.legal, hk] at h

theorem add16Form_of_legal {onPair : Reg16 → Instr} (hk : k.cls = .add16)
    (hpair : ∀ q, (onPair q).descriptor = .registerTargeted k q.target) (h : (Descriptor.mk k t p).legal = true) :
    ∃ i, add16Form onPair t p = .ok i ∧ i.descriptor = ⟨k, t, p⟩ := by
  cases p with
  | absent =>
    simp only [Descriptor.legal, hk] at h
    obtain ⟨q, rfl⟩ := reg16_cases h
    exact ⟨onPair q, by simp [add16Form], hpair q⟩
  | imm8 | bitIndex => simp [Descriptor.legal, hk] at h

theorem incDecForm_of_legal {onPair : Reg16 → Instr} (hk : k.cls = .incdec)
    (hreg : ∀ r, (onReg r).descriptor = .registerTargeted k r.target)
    (hmhl : onMhl.descriptor = .registerTargeted k .mhl)
    (hpair : ∀ q, (onPair q).descriptor = .registerTargeted k q.target) (h : (Descriptor.mk k t p).legal = true) :
    ∃ i, incDecForm onReg onMhl onPair t p = .ok i ∧ i.descriptor = ⟨k, t, p⟩ := by
  cases p with
  | absent =>
    simp only [Descriptor.legal, hk, Bool.or_eq_true] at h
    rcases h with h | h
    · rcases target8_cases h with ⟨r, rfl⟩ | rfl
      · exact ⟨onReg r, by simp [incDecForm], hreg r⟩
      · exact ⟨onMhl, rfl, hmhl⟩
    · obtain ⟨q, rfl⟩ := reg16_cases h
      exact ⟨onPair q, by simp [incDecForm], hpair q⟩
  | imm8 | bitIndex => simp [Descriptor.legal, hk] at h

theorem implForm_of_legal {j : Instr} (hk : k.cls = .impl) (hj : j.descriptor = .registerTargeted k .noTarget)
    (h : (Descriptor.mk k t p).legal = true) : ∃ i, implForm j t p = .ok i ∧ i.descriptor = ⟨k, t, p⟩ := by
  cases p with
  | absent =>
    simp only [Descriptor.legal, hk, beq_iff_eq] at h
    subst h
    exact ⟨j, rfl, hj⟩
  | imm8 | bitIndex => simp [Descriptor.legal, hk] at h

theorem shiftForm_of_legal (hk : k.cls = .shift) (hreg : ∀ r, (onReg r).descriptor = .registerTargeted k r.target)
    (hmhl : onMhl.descriptor = .registerTargeted k .mhl) (h : (Descriptor.mk k t p).legal = true) :
    ∃ i, shiftForm onReg onMhl t p = .ok i ∧ i.descriptor = ⟨k, t, p⟩ := by
  cases p with
  | absent =>
    simp only [Descriptor.legal, hk] at h
    rcases target8_cases h with ⟨r, rfl⟩ | rfl
    · exact ⟨onReg r, by simp [shiftForm], hreg r⟩
    · exact ⟨onMhl, rfl, hmhl⟩
  | imm8 | bitIndex => simp [Descriptor.legal, hk] at h

theorem bitForm_of_legal {onReg : Nat → Reg8 → Instr} {onMhl : Nat → Instr} (hk : k.cls = .bitop)
    (hreg : ∀ n r, (onReg n r).descriptor = .bitIndexed k r.target n)
    (hmhl : ∀ n, (onMhl n).descriptor = .bitIndexed k .mhl n) (h : (Descriptor.mk k t p).legal = true) :
    ∃ i, bitForm onReg onMhl t p = .ok i ∧ i.descriptor = ⟨k, t, p⟩ := by
  cases p with
  | bitIndex n =>
    simp only [Descriptor.legal, hk, Bool.and_eq_true] at h
    rcases target8_cases h.1 with ⟨r, rfl⟩ | rfl
    · exact ⟨onReg n r, by simp [bitForm], hreg n r⟩
    · exact ⟨onMhl n, rfl, hmhl n⟩
  | absent | imm8 => simp [Descriptor.legal, hk] at h

end

/-- Rule R93's dispatch gives every legal descriptor its instruction: the converse of `legal_of_resolve`. -/
theorem resolve_of_legal {d : Descriptor} (h : d.legal = true) : ∃ i, resolve d = .ok i ∧ i.descriptor = d := by
  obtain ⟨k, t, p⟩ := d
  cases k with
  | add | adc | sub | sbc | cp | and | or | xor =>
    exact alu8Form_of_legal rfl (fun _ => rfl) rfl (fun _ => rfl) h
  | addhl => exact add16Form_of_legal rfl (fun _ => rfl) h
  | inc | dec => exact incDecForm_of_legal rfl (fun _ => rfl) rfl (fun _ => rfl) h
  | ccf | scf | rra | rla | rrca | rlca | cpl => exact implForm_of_legal rfl rfl h
  | rlc | rrc | rl | rr | sla | sra | srl | swap => exact shiftForm_of_legal rfl (fun _ => rfl) rfl h
  | bit | set | reset => exact bitForm_of_legal rfl (fun _ _ => rfl) (fun _ => rfl) h

end Sys2Proof
end

section
/-! The formats of the opcode map (30_encoding.md section 4) read on the fields of a word. The payload tag and the target
name at most one format; rule R69 asks that they name a format of the kind's class and that PVAL fits it. -/

namespace Sys2Proof

/-- The formats in which a class has rows (rule R69). -/
def KindClass.formats : KindClass → List Format
  | .alu8 => [.r8, .mhl, .imm8]
  | .add16 => [.rr]
  | .incdec => [.r8, .mhl, .rr]
  | .impl => [.impl]
  | .shift => [.r8, .mhl]
  | .bitop => [.bitR8, .bitMhl]

/-- The format the payload tag and the target of a word name. -/
def Format.ofFields (p : BitVec 2) (t : BitVec 4) : Option Format :=
  if p = ptagAbsent then
    if t = 6 then some .mhl else if t.ule 7 then some .r8 else if t.ule 11 then some .rr
    else if t = 12 then some .impl else none
  else if p = ptagImm8 then
    if t = 12 then some .imm8 else none
  else if p = ptagBitIndex then
    if t = 6 then some .bitMhl else if t.ule 7 then some .bitR8 else none
  else none

/-- What a format asks of PVAL (rules R65 to R67). -/
def Format.fitsValue (v : Byte) : Format → Bool
  | .r8 | .mhl | .rr | .impl => v == 0
  | .imm8 => true
  | .bitR8 | .bitMhl => v.extractLsb' 3 5 == 0

/-- The word has the fields of the format, whatever its kind. -/
def Format.fits (f : Format) (w : DIW) : Bool :=
  rsvField w == 0 && Format.ofFields (ptagField w) (tgtField w) == some f && f.fitsValue (pvalField w)

theorem Format.fits_iff {f : Format} {w : DIW} : f.fits w = true ↔
    rsvField w = 0 ∧ Format.ofFields (ptagField w) (tgtField w) = some f ∧ f.fitsValue (pvalField w) = true := by
  simp [Format.fits, and_assoc]

/-- A word has the fields of one format at most. -/
theorem Format.eq_of_fits {f g : Format} {w : DIW} (hf : f.fits w = true) (hg : g.fits w = true) : f = g := by
  obtain ⟨-, hf, -⟩ := Format.fits_iff.mp hf
  obtain ⟨-, hg, -⟩ := Format.fits_iff.mp hg
  exact Option.some.inj (hf.symm.trans hg)

/-- Rule R69 by formats; the payload tag and the target together have 64 values. -/
theorem wfWord_eq_any_fits {w : DIW} {k : Kind} (hk : kindOfCode (kindField w) = some k) :
    wfWord w = k.cls.formats.any (·.fits w) := by
  simp only [wfWord, hk, Format.fits]
  generalize ptagField w = p, tgtField w = t, pvalField w = v, (rsvField w == 0) = r
  cases k.cls <;>
  · simp only [KindClass.formats, List.any_cons, List.any_nil, Format.fitsValue]
    generalize (v == 0) = zero, (v.extractLsb' 3 5 == 0) = index
    revert p t r zero index
    decide

end Sys2Proof
end

section
/-! A word that satisfies rule R69 decodes: its kind, its target and its payload are named, and the descriptor they make is
legal. With `wfWord_of_decode` this is the decoder's domain (30_encoding.md). -/

namespace Sys2Proof

/-- The payload tag of a format (rule R64). -/
def Format.tag : Format → BitVec 2
  | .r8 | .mhl | .rr | .impl => ptagAbsent
  | .imm8 => ptagImm8
  | .bitR8 | .bitMhl => ptagBitIndex

theorem Format.tag_of_ofFields {f : Format} {p : BitVec 2} {t : BitVec 4} :
    Format.ofFields p t = some f → p = f.tag := by
  cases f <;> revert p t <;> decide

/-- No format has a reserved target code. -/
theorem Format.exists_target_of_ofFields {f : Format} {p : BitVec 2} {t : BitVec 4} (h : Format.ofFields p t = some f) :
    ∃ x, targetOfCode t = some x := by
  have named : ∀ p t, (Format.ofFields p t).isSome = true → (targetOfCode t).isSome = true := by decide
  exact Option.isSome_iff_exists.mp (named p t (Option.isSome_iff_exists.mpr ⟨f, h⟩))

theorem Format.exists_payload_of_fitsValue {f : Format} {v : Byte} (h : f.fitsValue v = true) :
    ∃ x, payloadOfFields f.tag v = .ok x := by
  cases f with
  | r8 | mhl | rr | impl => exact ⟨.absent, if_pos (eq_of_beq h)⟩
  | imm8 => exact ⟨.imm8 v, rfl⟩
  | bitR8 | bitMhl => exact ⟨.bitIndex v.toNat, if_pos (toNat_lt_of_high_bits (eq_of_beq h))⟩

theorem exists_kind_of_wfWord {w : DIW} (h : wfWord w = true) : ∃ k, kindOfCode (kindField w) = some k := by
  cases hk : kindOfCode (kindField w) with
  | none => simp [wfWord, hk] at h
  | some k => exact ⟨k, rfl⟩

theorem exists_format_of_wfWord {w : DIW} {k : Kind} (hk : kindOfCode (kindField w) = some k) (h : wfWord w = true) :
    ∃ f ∈ k.cls.formats, f.fits w = true := by
  rwa [wfWord_eq_any_fits hk, List.any_eq_true] at h

theorem decode_of_wfWord {w : DIW} {k : Kind} (hk : kindOfCode (kindField w) = some k) (h : wfWord w = true) :
    ∃ i, decode w = .ok i ∧ i.descriptor.kind = k := by
  obtain ⟨f, -, hf⟩ := exists_format_of_wfWord hk h
  obtain ⟨hr, hof, hv⟩ := Format.fits_iff.mp hf
  obtain ⟨t, ht⟩ := Format.exists_target_of_ofFields hof
  obtain ⟨p, hp⟩ := Format.exists_payload_of_fitsValue hv
  rw [← Format.tag_of_ofFields hof] at hp
  have hword : (Descriptor.mk k t p).word = w := word_of_fields hr hk ht hp
  have hlegal : (Descriptor.mk k t p).legal = true := by
    refine legal_of_wfWord_word (fun n hn => ?_) (hword.symm ▸ h)
    obtain rfl : p = .bitIndex n := hn
    exact (bitIndex_lt_of_payloadOfFields hp).trans (by decide)
  obtain ⟨i, hi, hd⟩ := resolve_of_legal hlegal
  refine ⟨i, ?_, by rw [hd]⟩
  rw [← packFields_of_fields w, hr, decode_packFields _ _ _ _ hk ht hp, hi]

end Sys2Proof
end

section
/-! The rows of the opcode map (30_encoding.md section 4, rules R70 and R75): each is the row of a kind and of a format of
its class, and it selects the words with that kind's code and that format's fields. -/

namespace Sys2Proof

theorem word_eq_iff {w w' : DIW} :
    w = w' ↔ kindField w = kindField w' ∧ ptagField w = ptagField w' ∧ rsvField w = rsvField w' ∧
      tgtField w = tgtField w' ∧ pvalField w = pvalField w' := by
  refine ⟨fun h => by simp only [h, and_self], ?_⟩
  rintro ⟨hk, hp, hr, ht, hv⟩
  rw [← packFields_of_fields w, hk, hp, hr, ht, hv, packFields_of_fields]

theorem kindField_and (w m : DIW) : kindField (w &&& m) = kindField w &&& kindField m := BitVec.extractLsb'_and

theorem ptagField_and (w m : DIW) : ptagField (w &&& m) = ptagField w &&& ptagField m := BitVec.extractLsb'_and

theorem rsvField_and (w m : DIW) : rsvField (w &&& m) = rsvField w &&& rsvField m := BitVec.extractLsb'_and

theorem tgtField_and (w m : DIW) : tgtField (w &&& m) = tgtField w &&& tgtField m := BitVec.extractLsb'_and

theorem pvalField_and (w m : DIW) : pvalField (w &&& m) = pvalField w &&& pvalField m := BitVec.extractLsb'_and

/-- The target code in a format's match column; where the mask drops bits of it, the least code. -/
def Format.targetPattern : Format → BitVec 4
  | .r8 | .bitR8 => 0
  | .mhl | .bitMhl => 6
  | .rr => 8
  | .imm8 | .impl => 12

/-- The TGT bits of a format's mask column. -/
def Format.targetMask : Format → BitVec 4
  | .r8 | .bitR8 => 0b1000
  | .rr => 0b1100
  | .mhl | .bitMhl | .imm8 | .impl => 0b1111

/-- The PVAL bits of a format's mask column. -/
def Format.valueMask : Format → Byte
  | .r8 | .mhl | .rr | .impl => 0xFF
  | .imm8 => 0x00
  | .bitR8 | .bitMhl => 0xF8

/-- The row of a kind in a format. -/
def Format.row (f : Format) (k : Kind) : OpcodeRow :=
  ⟨k, f, packFields (kindCode k) f.tag 0 f.targetPattern 0, packFields 0xFF 3 3 f.targetMask f.valueMask⟩

theorem row_mem_opcodeMap {k : Kind} {f : Format} : f ∈ k.cls.formats → f.row k ∈ opcodeMap := by
  revert f
  cases k <;> decide

theorem eq_row_of_mem_opcodeMap {row : OpcodeRow} (h : row ∈ opcodeMap) :
    row.format ∈ row.kind.cls.formats ∧ row = row.format.row row.kind := by
  have rows : ∀ row ∈ opcodeMap, row.format ∈ row.kind.cls.formats ∧ row = row.format.row row.kind := by decide
  exact rows row h

theorem opcodeMap_nodup : opcodeMap.Nodup := by decide

theorem Format.value_test (f : Format) (v : Byte) : v &&& f.valueMask = 0 ↔ f.fitsValue v = true := by
  revert v
  cases f <;> decide

/-- The condition `w[10:8] != 6` of the F_R8 and F_BIT_R8 rows, on TGT. -/
def Format.avoidsMhl (t : BitVec 4) : Format → Bool
  | .r8 | .bitR8 => t.extractLsb' 0 3 != 6
  | .mhl | .imm8 | .rr | .impl | .bitMhl => true

theorem Format.target_test (f : Format) (p : BitVec 2) (t : BitVec 4) :
    (p = f.tag ∧ t &&& f.targetMask = f.targetPattern) ∧ f.avoidsMhl t = true ↔ Format.ofFields p t = some f := by
  revert p t
  cases f <;> decide

/-- The match and mask columns of a row, field by field. -/
theorem and_mask_row_iff {k : Kind} {f : Format} {w : DIW} :
    w &&& (f.row k).mask = (f.row k).pattern ↔
      kindField w = kindCode k ∧ ptagField w = f.tag ∧ rsvField w = 0 ∧
        tgtField w &&& f.targetMask = f.targetPattern ∧ pvalField w &&& f.valueMask = 0 := by
  have hk : kindField w &&& 0xFF = kindField w := BitVec.and_allOnes
  have hp : ptagField w &&& 3 = ptagField w := BitVec.and_allOnes
  have hr : rsvField w &&& 3 = rsvField w := BitVec.and_allOnes
  simp only [Format.row, word_eq_iff, kindField_and, ptagField_and, rsvField_and, tgtField_and, pvalField_and,
    kindField_packFields, ptagField_packFields, rsvField_packFields, tgtField_packFields, pvalField_packFields, hk, hp, hr]

/-- The condition of an F_R8 or F_BIT_R8 row reads the low bits of TGT. -/
theorem extractLsb'_tgtField (w : DIW) : (tgtField w).extractLsb' 0 3 = w.extractLsb' 8 3 := by
  apply BitVec.eq_of_getLsbD_eq
  intro i hi
  have hi4 : i < 4 := by omega
  simp [tgtField, BitVec.getLsbD_extractLsb', hi4]

theorem selectedBy_row (k : Kind) (f : Format) (w : DIW) :
    (f.row k).selectedBy w = (w &&& (f.row k).mask == (f.row k).pattern && f.avoidsMhl (tgtField w)) := by
  rw [OpcodeRow.selectedBy, ← extractLsb'_tgtField]
  cases f <;> rfl

theorem selectedBy_row_iff {k : Kind} {f : Format} {w : DIW} :
    (f.row k).selectedBy w = true ↔ kindField w = kindCode k ∧ f.fits w = true := by
  rw [selectedBy_row, Bool.and_eq_true, beq_iff_eq, and_mask_row_iff, Format.fits_iff, ← Format.target_test,
    Format.value_test]
  tauto

theorem wfWord_of_selectedBy {row : OpcodeRow} {w : DIW} (hrow : row ∈ opcodeMap) (h : row.selectedBy w = true) :
    wfWord w = true := by
  obtain ⟨hmem, heq⟩ := eq_row_of_mem_opcodeMap hrow
  rw [heq] at h
  obtain ⟨hk, hfit⟩ := selectedBy_row_iff.mp h
  have hcode : kindOfCode (kindField w) = some row.kind := by rw [hk, kindOfCode_kindCode]
  rw [wfWord_eq_any_fits hcode]
  exact List.any_eq_true.mpr ⟨row.format, hmem, hfit⟩

/-- The code fixes the row's kind, the fields fix its format. -/
theorem eq_row_of_selectedBy {row : OpcodeRow} {w : DIW} {k : Kind} {f : Format} (hrow : row ∈ opcodeMap)
    (hk : kindOfCode (kindField w) = some k) (hf : f.fits w = true) (h : row.selectedBy w = true) : row = f.row k := by
  obtain ⟨-, heq⟩ := eq_row_of_mem_opcodeMap hrow
  rw [heq] at h
  obtain ⟨hcode, hfit⟩ := selectedBy_row_iff.mp h
  rw [hcode, kindOfCode_kindCode, Option.some.injEq] at hk
  rw [heq, hk, Format.eq_of_fits hfit hf]

theorem filter_selectedBy_eq_singleton {w : DIW} {k : Kind} {f : Format} (hk : kindOfCode (kindField w) = some k)
    (hmem : f ∈ k.cls.formats) (hf : f.fits w = true) : opcodeMap.filter (·.selectedBy w) = [f.row k] := by
  have hsel : ∀ row ∈ opcodeMap, row.selectedBy w = (row == f.row k) := by
    intro row hrow
    rw [Bool.eq_iff_iff, beq_iff_eq]
    refine ⟨eq_row_of_selectedBy hrow hk hf, ?_⟩
    rintro rfl
    exact selectedBy_row_iff.mpr ⟨(kindCode_of_kindOfCode hk).symm, hf⟩
  rw [List.filter_congr hsel, List.filter_beq, List.count_eq_one_of_mem opcodeMap_nodup (row_mem_opcodeMap hmem)]
  rfl

end Sys2Proof
end

section
/-! The statements of 30_encoding.md sections 2 to 4, settled. -/

namespace Sys2Proof.Proofs

open Sys2Proof

/-- Settles O4: what decodes is the word of a legal descriptor, and a word that meets rule R69 names one. -/
theorem decodeAcceptsExactlyWellFormedWords : Obligations.DecodeAcceptsExactlyWellFormedWords := by
  intro w
  refine ⟨fun ⟨_, h⟩ => wfWord_of_decode h, fun hw => ?_⟩
  obtain ⟨_, hk⟩ := exists_kind_of_wfWord hw
  obtain ⟨i, hi, -⟩ := decode_of_wfWord hk hw
  exact ⟨i, hi⟩

/-- Settles O5: the two checks make the same test on each class and payload. -/
theorem descriptorLegalExactlyWhenItsWordIs : Obligations.DescriptorLegalExactlyWhenItsWordIs :=
  fun _ hn => ⟨wfWord_of_legal, legal_of_wfWord_word hn⟩

/-- Settles O6: the row is the one of the word's kind and of the one format its fields have. -/
theorem wellFormedWordSelectsExactlyOneRow : Obligations.WellFormedWordSelectsExactlyOneRow := by
  refine fun w => ⟨fun hw => ?_, fun hw => List.filter_eq_nil_iff.mpr fun row hrow hsel => ?_⟩
  · obtain ⟨k, hk⟩ := exists_kind_of_wfWord hw
    obtain ⟨f, hmem, hf⟩ := exists_format_of_wfWord hk hw
    obtain ⟨i, hi, hkind⟩ := decode_of_wfWord hk hw
    exact ⟨f.row k, i, hi, filter_selectedBy_eq_singleton hk hmem hf, hkind.symm⟩
  · exact Bool.false_ne_true (hw.symm.trans (wfWord_of_selectedBy hrow hsel))

end Sys2Proof.Proofs
end

section
/-! The frame of an instruction (40_execute.md rules R97, R104): each shape of Operands.lean writes the registers of one
destination, and leaves PC, the latch, the waiting requests and the outcome alone. -/

namespace Sys2Proof.Machine

/-- From `s` to `t` no register outside the destination `d` has changed, nor PC, the latch, the waiting requests or the
outcome. Flags, memory and bus accesses have tables of their own. -/
def ChangesOnly (s t : State) (d : Dest) : Prop :=
  (∀ r : Reg8, d.holds8 r = false → t.reg8 r = s.reg8 r) ∧ (d ≠ .pair .sp → t.sp = s.sp) ∧
    t.pc = s.pc ∧ t.fault = s.fault ∧ t.inputs = s.inputs ∧ t.out.outcome = s.out.outcome

/-- The answer `o` from `s` is a next state in which only the destination `d` has changed. -/
def WritesOnly (s : State) (d : Dest) (o : Host.Outcome State Fault Refusal) : Prop :=
  ∃ t, o = .next t ∧ ChangesOnly s t d

section
variable {s t u : State} {d : Dest}

theorem ChangesOnly.refl (s : State) (d : Dest) : ChangesOnly s s d :=
  ⟨fun _ _ => rfl, fun _ => rfl, rfl, rfl, rfl, rfl⟩

theorem ChangesOnly.trans (hst : ChangesOnly s t d) (htu : ChangesOnly t u d) : ChangesOnly s u d := by
  obtain ⟨hreg, hsp, hpc, hfault, hin, hout⟩ := hst
  obtain ⟨hreg', hsp', hpc', hfault', hin', hout'⟩ := htu
  exact ⟨fun r hr => (hreg' r hr).trans (hreg r hr), fun hd => (hsp' hd).trans (hsp hd), hpc'.trans hpc,
    hfault'.trans hfault, hin'.trans hin, hout'.trans hout⟩

/-- The frame says nothing of the flags. -/
theorem ChangesOnly.withFlags (h : ChangesOnly s t d) (f : Flags) : ChangesOnly s { t with f := f } d :=
  h.trans ⟨fun r _ => by cases r <;> rfl, fun _ => rfl, rfl, rfl, rfl, rfl⟩

/-- The frame says nothing of memory. -/
theorem ChangesOnly.withMem (h : ChangesOnly s t d) (m : Memory) : ChangesOnly s { t with mem := m } d :=
  h.trans ⟨fun r _ => by cases r <;> rfl, fun _ => rfl, rfl, rfl, rfl, rfl⟩

end

section
variable (s : State)

theorem State.reg8_setReg16_of_outside {p : Reg16} {r : Reg8} (v : Word16) (h : (Dest.pair p).holds8 r = false) :
    (s.setReg16 p v).reg8 r = s.reg8 r := by
  revert h
  cases p with
  | bc | de | hl => cases r <;> simp [Dest.holds8]
  | sp => cases r <;> simp

theorem State.sp_setReg16_of_ne {p : Reg16} (v : Word16) (h : p ≠ .sp) : (s.setReg16 p v).sp = s.sp := by
  cases p with
  | bc | de | hl => rfl
  | sp => exact absurd rfl h

/-- A bus access is in the frame of every destination. -/
theorem withBus_changesOnly (accesses : List BusAccess) (d : Dest) : ChangesOnly s (s.withBus accesses) d :=
  ⟨fun r _ => by cases r <;> rfl, fun _ => rfl, rfl, rfl, rfl, rfl⟩

theorem setReg8_changesOnly (r : Reg8) (v : Byte) : ChangesOnly s (s.setReg8 r v) (.target (.reg r)) := by
  refine ⟨fun r' h => ?_, fun _ => s.sp_setReg8 r v, s.pc_setReg8 r v, s.fault_setReg8 r v, s.inputs_setReg8 r v,
    congrArg Outputs.outcome (s.out_setReg8 r v)⟩
  rw [State.reg8_setReg8, if_neg (ne_of_beq_false h).symm]

theorem setReg16_changesOnly (p : Reg16) (v : Word16) : ChangesOnly s (s.setReg16 p v) (.pair p) :=
  ⟨fun _ h => s.reg8_setReg16_of_outside v h, fun h => s.sp_setReg16_of_ne v fun hp => h (congrArg Dest.pair hp),
    s.pc_setReg16 p v, s.fault_setReg16 p v, s.inputs_setReg16 p v, congrArg Outputs.outcome (s.out_setReg16 p v)⟩

theorem withTarget_changesOnly (v : Byte) (t : Target8) : ChangesOnly s (s.withTarget v t) (.target t) := by
  cases t with
  | reg r => exact setReg8_changesOnly s r v
  | mhl => exact (withBus_changesOnly s _ _).withMem _

theorem accumulate_writesOnly (alu : Byte → AluOut) (o : Operand8) :
    WritesOnly s (.target (.reg .a)) (accumulate alu o s) :=
  ⟨_, accumulate_eq alu o s, ((withBus_changesOnly s _ _).trans (setReg8_changesOnly _ .a _)).withFlags _⟩

theorem testOperand_writesOnly (alu : Byte → FlagCommit) (o : Operand8) :
    WritesOnly s .nothing (testOperand alu o s) :=
  ⟨_, testOperand_eq alu o s, (withBus_changesOnly s _ _).withFlags _⟩

theorem modify8_writesOnly (alu : Byte → AluOut) (t : Target8) : WritesOnly s (.target t) (modify8 alu t s) :=
  ⟨_, modify8_eq alu t s, (withTarget_changesOnly s _ t).withFlags _⟩

theorem modify16_writesOnly (alu : Word16 → Word16) (p : Reg16) : WritesOnly s (.pair p) (modify16 alu p s) :=
  ⟨_, modify16_eq alu p s, setReg16_changesOnly s p _⟩

theorem accumulate16_writesOnly (alu : Word16 → Alu16Out) (p : Reg16) :
    WritesOnly s (.pair .hl) (accumulate16 alu p s) :=
  ⟨_, accumulate16_eq alu p s, (setReg16_changesOnly s .hl _).withFlags _⟩

theorem modifyA_writesOnly (alu : Byte → AluOut) : WritesOnly s (.target (.reg .a)) (modifyA alu s) :=
  ⟨_, modifyA_eq alu s, (setReg8_changesOnly s .a _).withFlags _⟩

theorem flagsOnly_writesOnly (u : FlagCommit) : WritesOnly s .nothing (flagsOnly u s) :=
  ⟨_, flagsOnly_eq u s, (ChangesOnly.refl s _).withFlags _⟩

/-- Every instruction is one of the shapes, and its destination in rule R97 is the one its shape writes. -/
theorem exec_writesOnly (i : Instr) : WritesOnly s (destination i) (exec i s) := by
  cases i with
  | addR | addM | addI | adcR | adcM | adcI | subR | subM | subI | sbcR | sbcM | sbcI
  | andR | andM | andI | orR | orM | orI | xorR | xorM | xorI => exact accumulate_writesOnly s _ _
  | cpR | cpM | cpI | bitR | bitM => exact testOperand_writesOnly s _ _
  | addhlP => exact accumulate16_writesOnly s _ _
  | incP | decP => exact modify16_writesOnly s _ _
  | incR | incM | decR | decM | rlcR | rlcM | rrcR | rrcM | rlR | rlM | rrR | rrM
  | slaR | slaM | sraR | sraM | srlR | srlM | swapR | swapM
  | setR | setM | resetR | resetM => exact modify8_writesOnly s _ _
  | rra | rla | rrca | rlca | cpl => exact modifyA_writesOnly s _
  | ccf | scf => exact flagsOnly_writesOnly s _

end

end Sys2Proof.Machine
end

section
/-! The flags of an instruction (10_state.md section 2, 40_execute.md rule R98): a commit has a row, the entry of each of
its four selections. Each shape commits the flags its primitive answers, so a primitive whose commits all have one row
follows that row. -/

namespace Sys2Proof.Machine

/-- The entry of the flag table that a selection of rule R98 is written as. -/
def FlagSel.entry : FlagSel → FlagEntry
  | .keep => .kept
  | .force0 => .zero
  | .force1 => .one
  | .computed _ => .computed

/-- The row of the flag table that a commit is written as. -/
def FlagCommit.row (u : FlagCommit) : FlagRow := ⟨u.z.entry, u.n.entry, u.h.entry, u.c.entry⟩

/-- The four flags went from `old` to `new` as the row says. -/
def FlagRow.Allows (row : FlagRow) (old new : Flags) : Prop :=
  row.z.allows old.z new.z ∧ row.n.allows old.n new.n ∧ row.h.allows old.h new.h ∧ row.c.allows old.c new.c

/-- The answer `o` from `s` is a next state with the flags as the row says. -/
def FollowsRow (s : State) (row : FlagRow) (o : Host.Outcome State Fault Refusal) : Prop :=
  ∃ t, o = .next t ∧ row.Allows s.f t.f

theorem FlagSel.entry_allows_apply (sel : FlagSel) (old : Bool) : sel.entry.allows old (sel.apply old) := by
  cases sel with
  | keep | force0 | force1 => rfl
  | computed => trivial

theorem FlagCommit.row_allows_apply (u : FlagCommit) (f : Flags) : u.row.Allows f (u.apply f) :=
  ⟨u.z.entry_allows_apply f.z, u.n.entry_allows_apply f.n, u.h.entry_allows_apply f.h, u.c.entry_allows_apply f.c⟩

section
variable (s : State) {row : FlagRow}

/-- A next state with the flags of a commit follows the row of the commit. -/
theorem followsRow_of_commit {t : State} {u : FlagCommit} {o : Host.Outcome State Fault Refusal} (ho : o = .next t)
    (hf : t.f = u.apply s.f) (hu : u.row = row) : FollowsRow s row o :=
  ⟨t, ho, by rw [hf, ← hu]; exact u.row_allows_apply s.f⟩

theorem accumulate_followsRow {alu : Byte → AluOut} (o : Operand8) (h : ∀ v, (alu v).flags.row = row) :
    FollowsRow s row (accumulate alu o s) :=
  followsRow_of_commit s (accumulate_eq alu o s) rfl (h _)

theorem testOperand_followsRow {alu : Byte → FlagCommit} (o : Operand8) (h : ∀ v, (alu v).row = row) :
    FollowsRow s row (testOperand alu o s) :=
  followsRow_of_commit s (testOperand_eq alu o s) rfl (h _)

theorem modify8_followsRow {alu : Byte → AluOut} (t : Target8) (h : ∀ v, (alu v).flags.row = row) :
    FollowsRow s row (modify8 alu t s) :=
  followsRow_of_commit s (modify8_eq alu t s) rfl (h _)

theorem modify16_followsRow (alu : Word16 → Word16) (p : Reg16) :
    FollowsRow s FlagCommit.keepAll.row (modify16 alu p s) :=
  followsRow_of_commit s (modify16_eq alu p s) (s.f_setReg16 p _) rfl

theorem accumulate16_followsRow {alu : Word16 → Alu16Out} (p : Reg16) (h : ∀ v, (alu v).flags.row = row) :
    FollowsRow s row (accumulate16 alu p s) :=
  followsRow_of_commit s (accumulate16_eq alu p s) rfl (h _)

theorem modifyA_followsRow {alu : Byte → AluOut} (h : ∀ v, (alu v).flags.row = row) :
    FollowsRow s row (modifyA alu s) :=
  followsRow_of_commit s (modifyA_eq alu s) rfl (h _)

theorem flagsOnly_followsRow {u : FlagCommit} (h : u.row = row) : FollowsRow s row (flagsOnly u s) :=
  followsRow_of_commit s (flagsOnly_eq u s) rfl h

/-- Every instruction is one of the shapes, and the row of every commit of its primitive is its row of the flag table. -/
theorem exec_followsRow (i : Instr) : FollowsRow s (flagTable i) (exec i s) := by
  cases i with
  | addR | addM | addI | adcR | adcM | adcI | subR | subM | subI | sbcR | sbcM | sbcI
  | andR | andM | andI | orR | orM | orI | xorR | xorM | xorI => exact accumulate_followsRow s _ fun _ => rfl
  | cpR | cpM | cpI | bitR | bitM => exact testOperand_followsRow s _ fun _ => rfl
  | addhlP => exact accumulate16_followsRow s _ fun _ => rfl
  | incP | decP => exact modify16_followsRow s _ _
  | incR | incM | decR | decM | rlcR | rlcM | rrcR | rrcM | rlR | rlM | rrR | rrM
  | slaR | slaM | sraR | sraM | srlR | srlM | swapR | swapM
  | setR | setM | resetR | resetM => exact modify8_followsRow s _ fun _ => rfl
  | rra | rla | rrca | rlca | cpl => exact modifyA_followsRow s fun _ => rfl
  | ccf | scf => exact flagsOnly_followsRow s rfl

end

end Sys2Proof.Machine
end

section
/-! The statements of 40_execute.md, settled. -/

namespace Sys2Proof.Proofs

open Sys2Proof Sys2Proof.Machine

/-- Settles O24: every instruction is one of seven shapes, and each writes one destination. -/
theorem instructionChangesOnlyItsDestination : Obligations.InstructionChangesOnlyItsDestination :=
  fun i s => exec_writesOnly s i

/-- Settles O25: every instruction is one of seven shapes, and each commits the flags its primitive answers. -/
theorem flagsFollowTheFlagTable : Obligations.FlagsFollowTheFlagTable :=
  fun i s => exec_followsRow s i

/-- Settles O10: a field of the view lies wholly in one part of each append it is cut from. -/
theorem stateViewPacksTheRegisters : Obligations.StateViewPacksTheRegisters := by
  intro s
  refine ⟨?_, ?_, ?_, ?_, ?_, ?_, ?_, ?_, ?_, ?_⟩ <;>
    simp (disch := decide) only [State.stateView, BitVec.extractLsb'_append_eq_of_le,
      BitVec.extractLsb'_append_eq_right, BitVec.extractLsb'_eq_self, Nat.reduceSub]

/-- Settles O14: by the step lemma of an instruction; a word the harness sends next is one such request. -/
theorem stepRunsTheDecodedInstruction : Obligations.StepRunsTheDecodedInstruction := by
  have hrequest : ∀ (s : State) (w : DIW) (rest : List Request) (i : Instr),
      s.inputs = execRequest w :: rest → s.fault = .none → decode w = .ok i →
      step s = acknowledge (exec i (s.beginStep rest)) :=
    fun s w rest i hin hf hd => step_instruction hin rfl rfl hf hd
  refine ⟨hrequest, fun s w i hd hf => ?_⟩
  have hword : BitVec.ofNat 24 (w.toNat % 2 ^ 24) = w := by
    rw [Nat.mod_eq_of_lt w.isLt, BitVec.ofNat_toNat, BitVec.setWidth_eq]
  rw [State.withFetchWord_eq, hword]
  exact hrequest (s.send w) w s.inputs i rfl hf hd

end Sys2Proof.Proofs
end

section
/-! The words the spec writes out for an operand or a pair (30_encoding.md rules R61, R63) are the words of descriptors,
and the word of an instruction decodes to it. -/

namespace Sys2Proof

/-- The fields of a payload whose bit index has a word name that payload: the converse of `payload_fields`. -/
theorem payloadOfFields_tag_value {p : Payload} (hp : ∀ n, p = .bitIndex n → n < 8) :
    payloadOfFields p.tag p.value = .ok p := by
  cases p with
  | absent | imm8 => rfl
  | bitIndex n =>
    have hn := hp n rfl
    have hval : (BitVec.ofNat 8 n).toNat = n := Nat.mod_eq_of_lt (by omega)
    simp [payloadOfFields, Payload.tag, Payload.value, ptagBitIndex, hval, hn]

theorem decode_word {d : Descriptor} (hd : ∀ n, d.payload = .bitIndex n → n < 8) : decode d.word = resolve d :=
  decode_packFields _ _ _ _ (kindOfCode_kindCode _) (targetOfCode_targetCode _) (payloadOfFields_tag_value hd)

/-- The dispatch of rule R93 undoes the factories of rule R76. -/
theorem resolve_descriptor (i : Instr) : resolve i.descriptor = .ok i := by
  cases i with
  | addR r | adcR r | subR r | sbcR r | cpR r | andR r | orR r | xorR r
  | incR r | decR r | rlcR r | rrcR r | rlR r | rrR r | slaR r | sraR r | srlR r | swapR r
  | bitR n r | setR n r | resetR n r => cases r <;> rfl
  | addhlP p | incP p | decP p => cases p <;> rfl
  | addM | adcM | subM | sbcM | cpM | andM | orM | xorM
  | addI | adcI | subI | sbcI | cpI | andI | orI | xorI
  | incM | decM | rlcM | rrcM | rlM | rrM | slaM | sraM | srlM | swapM | bitM | setM | resetM
  | ccf | scf | rra | rla | rrca | rlca | cpl => rfl

theorem bitIndex_lt_of_wellFormed {i : Instr} (hi : i.wellFormed = true) :
    ∀ n, i.descriptor.payload = .bitIndex n → n < 8 := by
  intro n hn
  cases i with
  | bitR | bitM | setR | setM | resetR | resetM =>
    cases hn
    exact of_decide_eq_true hi
  | _ => cases hn

theorem decode_encode {i : Instr} (hi : i.wellFormed = true) : decode (encode i) = .ok i :=
  (decode_word (bitIndex_lt_of_wellFormed hi)).trans (resolve_descriptor i)

/-! ## The words as the spec writes them -/

theorem packFields_eq_nibbles (kk : BitVec 8) (p : BitVec 2) (t : BitVec 4) (v : Byte) :
    packFields kk p 0 t v = kk ++ (p ++ 0#2) ++ t ++ v := by
  rw [packFields, BitVec.append_assoc (x₁ := kk), BitVec.cast_eq]
  rfl

/-- `0xkk0t00`, as the fields of a word without payload. -/
theorem packFields_absent (kk : BitVec 8) (t : BitVec 4) :
    packFields kk ptagAbsent 0 t 0 = kk ++ 0x0#4 ++ t ++ 0x00#8 :=
  packFields_eq_nibbles ..

/-- `0xkk4Cii`, as the fields of a word with an immediate. -/
theorem packFields_imm8 (kk : BitVec 8) (v : Byte) : packFields kk ptagImm8 0 12 v = kk ++ 0x4C#8 ++ v := by
  rw [packFields_eq_nibbles, BitVec.append_assoc (x₁ := kk), BitVec.cast_eq]
  rfl

/-- The descriptor of the form of an ALU8 kind that has the operand `o` (rules R69, R76). -/
def Operand8.descriptor (k : Kind) : Operand8 → Descriptor
  | .target (.reg r) => .registerTargeted k r.target
  | .target .mhl => .registerTargeted k .mhl
  | .imm v => .immediate k v

theorem targetDigit_reg (r : Reg8) : targetDigit (.reg r) = targetCode r.target := by
  cases r <;> rfl

theorem pairDigit_eq (p : Reg16) : pairDigit p = targetCode p.target := by
  cases p <;> rfl

theorem operandWord_kindCode (k : Kind) (o : Operand8) : operandWord (kindCode k) o = (o.descriptor k).word := by
  match o with
  | .target (.reg r) =>
    rw [operandWord, targetWord, targetDigit_reg]
    exact (packFields_absent ..).symm
  | .target .mhl => exact (packFields_absent ..).symm
  | .imm _ => exact (packFields_imm8 ..).symm

theorem pairWord_kindCode (k : Kind) (p : Reg16) :
    pairWord (kindCode k) p = (Descriptor.registerTargeted k p.target).word := by
  rw [pairWord, pairDigit_eq]
  exact (packFields_absent ..).symm

/-- The word of an operand under a kind's code decodes to that kind's form with that operand. -/
theorem decode_operandWord {k : Kind} {o : Operand8} {i : Instr} (hi : i.wellFormed = true)
    (hd : i.descriptor = o.descriptor k) : decode (operandWord (kindCode k) o) = .ok i := by
  rw [operandWord_kindCode, ← hd]
  exact decode_encode hi

theorem decode_pairWord {k : Kind} {p : Reg16} {i : Instr} (hi : i.wellFormed = true)
    (hd : i.descriptor = .registerTargeted k p.target) : decode (pairWord (kindCode k) p) = .ok i := by
  rw [pairWord_kindCode, ← hd]
  exact decode_encode hi

/-! ## The forms of each kind -/

theorem decode_addOf (o : Operand8) : decode (operandWord 0x01 o) = .ok (.addOf o) := by
  match o with
  | .target (.reg _) | .target .mhl | .imm _ => exact decode_operandWord (k := .add) rfl rfl

theorem decode_adcOf (o : Operand8) : decode (operandWord 0x02 o) = .ok (.adcOf o) := by
  match o with
  | .target (.reg _) | .target .mhl | .imm _ => exact decode_operandWord (k := .adc) rfl rfl

theorem decode_subOf (o : Operand8) : decode (operandWord 0x04 o) = .ok (.subOf o) := by
  match o with
  | .target (.reg _) | .target .mhl | .imm _ => exact decode_operandWord (k := .sub) rfl rfl

theorem decode_sbcOf (o : Operand8) : decode (operandWord 0x05 o) = .ok (.sbcOf o) := by
  match o with
  | .target (.reg _) | .target .mhl | .imm _ => exact decode_operandWord (k := .sbc) rfl rfl

theorem decode_cpOf (o : Operand8) : decode (operandWord 0x06 o) = .ok (.cpOf o) := by
  match o with
  | .target (.reg _) | .target .mhl | .imm _ => exact decode_operandWord (k := .cp) rfl rfl

theorem decode_addhlP (p : Reg16) : decode (pairWord 0x03 p) = .ok (.addhlP p) :=
  decode_pairWord (k := .addhl) rfl rfl

end Sys2Proof
end

section
/-! The ALU primitives of 41_arithmetic.md (rules R111 to R116) in integers: what each returns and what it commits. -/

namespace Sys2Proof.Machine

theorem b2i_eq (b : Bool) : b2i b = b.toNat := by
  cases b <;> rfl

theorem isZero_eq (v : Byte) : isZero v = decide (v = 0) := rfl

theorem toNat_ofInt_byte (x : Int) : ((BitVec.ofInt 8 x).toNat : Int) = x % 256 := by
  rw [BitVec.toNat_ofInt]
  omega

/-- The carry out of a sum of two bytes and a carry-in, as a number: what the sum holds above its low byte. -/
theorem toNat_carry {n : Nat} (hn : n < 512) : (decide (n > 0xFF)).toNat = n / 256 := by
  by_cases hc : n > 0xFF
  · rw [decide_eq_true hc, Bool.toNat_true]
    omega
  · rw [decide_eq_false hc, Bool.toNat_false]
    omega

section
variable (acc opnd : Byte) (cin : Bool) (f : Flags)

theorem aluAdc_toNat : (aluAdc cin acc opnd).result.toNat = (acc.toNat + opnd.toNat + cin.toNat) % 256 := by
  rw [← b2i_eq]
  exact BitVec.toNat_ofNat _ _

theorem aluAdc_apply : (aluAdc cin acc opnd).flags.apply f =
    ⟨decide ((aluAdc cin acc opnd).result = 0), false, decide (acc.toNat % 16 + opnd.toNat % 16 + cin.toNat > 0xF),
      decide (acc.toNat + opnd.toNat + cin.toNat > 0xFF)⟩ := by
  simp [aluAdc, isZero_eq, halfCarryAdd, carryAdd, lowNibble_eq, b2i_eq]

/-- ADD is ADC without a carry-in. -/
theorem aluAdd_eq_aluAdc : aluAdd acc opnd = aluAdc false acc opnd := rfl

theorem aluAdd_toNat : (aluAdd acc opnd).result.toNat = (acc.toNat + opnd.toNat) % 256 := by
  rw [aluAdd_eq_aluAdc]
  exact aluAdc_toNat acc opnd false

theorem aluAdd_apply : (aluAdd acc opnd).flags.apply f =
    ⟨decide ((aluAdd acc opnd).result = 0), false, decide (acc.toNat % 16 + opnd.toNat % 16 > 0xF),
      decide (acc.toNat + opnd.toNat > 0xFF)⟩ := by
  rw [aluAdd_eq_aluAdc]
  exact aluAdc_apply acc opnd false f

theorem aluSbc_toNat :
    ((aluSbc cin acc opnd).result.toNat : Int) = ((acc.toNat : Int) - opnd.toNat - cin.toNat) % 256 := by
  rw [← b2i_eq]
  exact toNat_ofInt_byte _

theorem aluSbc_apply : (aluSbc cin acc opnd).flags.apply f =
    ⟨decide ((aluSbc cin acc opnd).result = 0), true, decide (acc.toNat % 16 < opnd.toNat % 16 + cin.toNat),
      decide (acc.toNat < opnd.toNat + cin.toNat)⟩ := by
  simp [aluSbc, isZero_eq, halfCarrySub, carrySub, lowNibble_eq, b2i_eq]

/-- SUB is SBC without a borrow-in. -/
theorem aluSub_eq_aluSbc : aluSub acc opnd = aluSbc false acc opnd := by
  simp [aluSub, aluSbc, b2i]

theorem aluSub_toNat : ((aluSub acc opnd).result.toNat : Int) = ((acc.toNat : Int) - opnd.toNat) % 256 :=
  toNat_ofInt_byte _

theorem aluSub_apply : (aluSub acc opnd).flags.apply f =
    ⟨decide ((aluSub acc opnd).result = 0), true, decide (acc.toNat % 16 < opnd.toNat % 16),
      decide (acc.toNat < opnd.toNat)⟩ := by
  rw [aluSub_eq_aluSbc]
  exact aluSbc_apply acc opnd false f

/-- Two bytes differ by less than 256. -/
theorem aluSub_result_eq_zero_iff : (aluSub acc opnd).result = 0 ↔ acc = opnd := by
  have hres := aluSub_toNat acc opnd
  have hacc := acc.isLt
  have hopnd := opnd.isLt
  have hzero : (0 : Byte).toNat = 0 := rfl
  rw [← BitVec.toNat_inj, ← BitVec.toNat_inj]
  omega

/-- CP commits the flags of SUB (rule R116). -/
theorem aluCp_eq : aluCp acc opnd = (aluSub acc opnd).flags := rfl

theorem aluCp_apply : (aluCp acc opnd).apply f =
    ⟨decide (acc = opnd), true, decide (acc.toNat % 16 < opnd.toNat % 16), decide (acc.toNat < opnd.toNat)⟩ := by
  rw [aluCp_eq, aluSub_apply, decide_eq_decide.mpr (aluSub_result_eq_zero_iff acc opnd)]

end

section
variable (x y : Word16) (f : Flags)

theorem aluAddHL_apply : (aluAddHL x y).flags.apply f =
    ⟨f.z, false, decide (x.toNat % 4096 + y.toNat % 4096 > 0xFFF), decide (x.toNat + y.toNat > 0xFFFF)⟩ := by
  simp [aluAddHL, halfCarryAdd16, carryAdd16, lowTwelve_eq]

theorem aluAddHL_result : (aluAddHL x y).result = BitVec.ofNat 16 (x.toNat + y.toNat) := rfl

end

/-! ## Which primitive each form runs -/

section
variable (o : Operand8) (s : State)

theorem exec_addOf : exec (.addOf o) s = accumulate (aluAdd s.a) o s := by
  match o with
  | .target (.reg _) | .target .mhl | .imm _ => rfl

theorem exec_adcOf : exec (.adcOf o) s = accumulate (aluAdc s.f.c s.a) o s := by
  match o with
  | .target (.reg _) | .target .mhl | .imm _ => rfl

theorem exec_subOf : exec (.subOf o) s = accumulate (aluSub s.a) o s := by
  match o with
  | .target (.reg _) | .target .mhl | .imm _ => rfl

theorem exec_sbcOf : exec (.sbcOf o) s = accumulate (aluSbc s.f.c s.a) o s := by
  match o with
  | .target (.reg _) | .target .mhl | .imm _ => rfl

theorem exec_cpOf : exec (.cpOf o) s = testOperand (aluCp s.a) o s := by
  match o with
  | .target (.reg _) | .target .mhl | .imm _ => rfl

theorem exec_addhlP (p : Reg16) : exec (.addhlP p) s = accumulate16 (aluAddHL (s.reg16 .hl)) p s := rfl

theorem exec_addI (v : Byte) :
    exec (.addI v) s = .next { s with a := (aluAdd s.a v).result, f := (aluAdd s.a v).flags.apply s.f } :=
  rfl

theorem exec_adcI (v : Byte) :
    exec (.adcI v) s = .next { s with a := (aluAdc s.f.c s.a v).result, f := (aluAdc s.f.c s.a v).flags.apply s.f } :=
  rfl

end

end Sys2Proof.Machine
end

section
/-! The statements of 41_arithmetic.md, settled. -/

namespace Sys2Proof.Proofs

open Sys2Proof Sys2Proof.Machine

/-- Settles O30: ADD is ADC without a carry-in. -/
theorem addResultAndFlags : Obligations.AddResultAndFlags := by
  refine fun o s => ⟨decode_addOf o, _, aluAdd_toNat _ _, ?_⟩
  rw [exec_addOf, accumulate_eq, aluAdd_apply]

/-- Settles O31: the sum is exact until it is truncated, so the flags compare exact sums with the boundaries. -/
theorem adcResultAndFlags : Obligations.AdcResultAndFlags := by
  refine fun o s => ⟨decode_adcOf o, _, aluAdc_toNat _ _ _, ?_⟩
  rw [exec_adcOf, accumulate_eq, aluAdc_apply]

/-- Settles O32: the pair write splits the integer sum into its two bytes. -/
theorem addhlResultAndFlags : Obligations.AddhlResultAndFlags := by
  refine fun p s => ⟨decode_addhlP p, ?_⟩
  rw [exec_addhlP, accumulate16_eq, aluAddHL_apply, aluAddHL_result, State.setReg16_ofNat]
  simp only [State.reg16_toNat]

/-- Settles O33: SUB is SBC without a borrow-in. -/
theorem subResultAndFlags : Obligations.SubResultAndFlags := by
  refine fun o s => ⟨decode_subOf o, _, aluSub_toNat _ _, ?_⟩
  rw [exec_subOf, accumulate_eq, aluSub_apply]

/-- Settles O34: the right side of the borrow comparisons is an exact sum, never truncated. -/
theorem sbcResultAndFlags : Obligations.SbcResultAndFlags := by
  refine fun o s => ⟨decode_sbcOf o, _, aluSbc_toNat _ _ _, ?_⟩
  rw [exec_sbcOf, accumulate_eq, aluSbc_apply]

/-- Settles O35: CP commits SUB's flags, and a difference of two bytes is zero when they are equal. -/
theorem cpSetsTheFlagsOfSubAndKeepsA : Obligations.CpSetsTheFlagsOfSubAndKeepsA := by
  intro o s
  have hcp := (exec_cpOf o s).trans (testOperand_eq _ o s)
  have hsub := (exec_subOf o s).trans (accumulate_eq _ o s)
  refine ⟨decode_cpOf o, _, hcp, ?_, _, hsub, rfl⟩
  rw [aluCp_apply]

/-- Settles O47: the carry of the low bytes is what their sum holds above its low byte. -/
theorem addThenAdcAddsSixteenBits : Obligations.AddThenAdcAddsSixteenBits := by
  intro s x y
  change ∃ t u, exec (.addI (lowByte y)) { s with a := lowByte x } = .next t ∧
    exec (.adcI (highByte y)) { t with a := highByte x } = .next u ∧ _
  refine ⟨_, _, exec_addI _ _, exec_adcI _ _, ?_, ?_⟩
  · simp (disch := omega) only [aluAdd_apply, aluAdc_toNat, aluAdd_toNat, highByte_toNat, lowByte_toNat, toNat_carry]
    omega
  · simp (disch := omega) only [aluAdd_apply, aluAdc_apply, highByte_toNat, lowByte_toNat, toNat_carry,
      decide_eq_decide]
    omega

end Sys2Proof.Proofs
end

section
/-! The ALU primitives of 42_logical.md (rules R130 to R132) bit by bit, the words of their forms and which primitive each
form runs. -/

namespace Sys2Proof

theorem decode_andOf (o : Operand8) : decode (operandWord 0x07 o) = .ok (.andOf o) := by
  match o with
  | .target (.reg _) | .target .mhl | .imm _ => exact decode_operandWord (k := .and) rfl rfl

theorem decode_orOf (o : Operand8) : decode (operandWord 0x08 o) = .ok (.orOf o) := by
  match o with
  | .target (.reg _) | .target .mhl | .imm _ => exact decode_operandWord (k := .or) rfl rfl

theorem decode_xorOf (o : Operand8) : decode (operandWord 0x09 o) = .ok (.xorOf o) := by
  match o with
  | .target (.reg _) | .target .mhl | .imm _ => exact decode_operandWord (k := .xor) rfl rfl

end Sys2Proof

namespace Sys2Proof.Machine

section
variable (acc opnd : Byte) (f : Flags)

theorem aluAnd_getLsbD (k : Nat) :
    (aluAnd acc opnd).result.getLsbD k = (acc.getLsbD k && opnd.getLsbD k) :=
  BitVec.getLsbD_and

theorem aluAnd_apply :
    (aluAnd acc opnd).flags.apply f = ⟨decide ((aluAnd acc opnd).result = 0), false, true, false⟩ := rfl

theorem aluOr_getLsbD (k : Nat) :
    (aluOr acc opnd).result.getLsbD k = (acc.getLsbD k || opnd.getLsbD k) :=
  BitVec.getLsbD_or

theorem aluOr_apply :
    (aluOr acc opnd).flags.apply f = ⟨decide ((aluOr acc opnd).result = 0), false, false, false⟩ := rfl

theorem aluXor_getLsbD (k : Nat) :
    (aluXor acc opnd).result.getLsbD k = (acc.getLsbD k ^^ opnd.getLsbD k) :=
  BitVec.getLsbD_xor

theorem aluXor_apply :
    (aluXor acc opnd).flags.apply f = ⟨decide ((aluXor acc opnd).result = 0), false, false, false⟩ := rfl

end

section
variable (o : Operand8) (s : State)

theorem exec_andOf : exec (.andOf o) s = accumulate (aluAnd s.a) o s := by
  match o with
  | .target (.reg _) | .target .mhl | .imm _ => rfl

theorem exec_orOf : exec (.orOf o) s = accumulate (aluOr s.a) o s := by
  match o with
  | .target (.reg _) | .target .mhl | .imm _ => rfl

theorem exec_xorOf : exec (.xorOf o) s = accumulate (aluXor s.a) o s := by
  match o with
  | .target (.reg _) | .target .mhl | .imm _ => rfl

end

end Sys2Proof.Machine
end

section
/-! The statement of 42_logical.md, settled. -/

namespace Sys2Proof.Proofs

open Sys2Proof Sys2Proof.Machine

/-- Settles O36: the primitive acts on each bit alone, and only Z of its flags reads the result. -/
theorem logicalResultAndFlags : Obligations.LogicalResultAndFlags := by
  refine fun o s => ⟨decode_andOf o, decode_orOf o, decode_xorOf o, ?and, ?or, ?xor⟩
  case and =>
    refine ⟨_, fun k _ => aluAnd_getLsbD _ _ k, ?_⟩
    rw [exec_andOf, accumulate_eq, aluAnd_apply]
  case or =>
    refine ⟨_, fun k _ => aluOr_getLsbD _ _ k, ?_⟩
    rw [exec_orOf, accumulate_eq, aluOr_apply]
  case xor =>
    refine ⟨_, fun k _ => aluXor_getLsbD _ _ k, ?_⟩
    rw [exec_xorOf, accumulate_eq, aluXor_apply]

end Sys2Proof.Proofs
end

section
/-! The ALU primitives of 43_inc_dec.md (rules R140, R141) in integers, the words of their forms and which primitive each
form runs. -/

namespace Sys2Proof

/-- The word of an 8-bit target under a kind's code decodes to that kind's form with that target. -/
theorem decode_targetWord {k : Kind} {t : Target8} {i : Instr} (hi : i.wellFormed = true)
    (hd : i.descriptor = (Operand8.target t).descriptor k) : decode (targetWord (kindCode k) t) = .ok i :=
  decode_operandWord (o := .target t) hi hd

theorem decode_incOf (t : Target8) : decode (targetWord 0x0A t) = .ok (.incOf t) := by
  cases t with
  | reg | mhl => exact decode_targetWord (k := .inc) rfl rfl

theorem decode_decOf (t : Target8) : decode (targetWord 0x0B t) = .ok (.decOf t) := by
  cases t with
  | reg | mhl => exact decode_targetWord (k := .dec) rfl rfl

theorem decode_incP (p : Reg16) : decode (pairWord 0x0A p) = .ok (.incP p) :=
  decode_pairWord (k := .inc) rfl rfl

theorem decode_decP (p : Reg16) : decode (pairWord 0x0B p) = .ok (.decP p) :=
  decode_pairWord (k := .dec) rfl rfl

end Sys2Proof

namespace Sys2Proof.Machine

section
variable (old : Byte) (f : Flags)

theorem aluInc_toNat : (aluInc old).result.toNat = (old.toNat + 1) % 256 :=
  BitVec.toNat_ofNat _ _

theorem aluInc_apply : (aluInc old).flags.apply f =
    ⟨decide ((aluInc old).result = 0), false, decide (old.toNat % 16 + 1 > 0xF), f.c⟩ := by
  rw [← lowNibble_eq]
  rfl

/-- Modulo 256, taking 1 away is adding 255. -/
theorem aluDec_toNat : (aluDec old).result.toNat = (old.toNat + 255) % 256 := by
  have hres : ((aluDec old).result.toNat : Int) = (old.toNat - 1) % 256 := toNat_ofInt_byte _
  omega

theorem aluDec_apply : (aluDec old).flags.apply f =
    ⟨decide ((aluDec old).result = 0), true, decide (old.toNat % 16 < 1), f.c⟩ := by
  rw [← lowNibble_eq]
  rfl

end

section
variable (old : Word16)

theorem aluInc16_eq : aluInc16 old = BitVec.ofNat 16 ((old.toNat + 1) % 65536) :=
  BitVec.eq_of_toNat_eq (Nat.mod_mod _ _).symm

/-- Modulo 65536, taking 1 away is adding 65535. -/
theorem aluDec16_eq : aluDec16 old = BitVec.ofNat 16 ((old.toNat + 65535) % 65536) := by
  apply BitVec.eq_of_toNat_eq
  rw [aluDec16, BitVec.toNat_ofInt, BitVec.toNat_ofNat]
  omega

end

/-! ## Which primitive each form runs -/

section
variable (s : State)

theorem exec_incOf (t : Target8) : exec (.incOf t) s = modify8 aluInc t s := by
  cases t with
  | reg | mhl => rfl

theorem exec_decOf (t : Target8) : exec (.decOf t) s = modify8 aluDec t s := by
  cases t with
  | reg | mhl => rfl

theorem exec_incP (p : Reg16) : exec (.incP p) s = modify16 aluInc16 p s := rfl

theorem exec_decP (p : Reg16) : exec (.decP p) s = modify16 aluDec16 p s := rfl

end

end Sys2Proof.Machine
end

section
/-! The statements of 43_inc_dec.md, settled. -/

namespace Sys2Proof.Proofs

open Sys2Proof Sys2Proof.Machine

/-- Settles O37: the 8-bit forms are read-modify-writes that commit no C, the 16-bit forms write the pair alone. -/
theorem incResultAndFlags : Obligations.IncResultAndFlags := by
  refine ⟨fun t s => ⟨decode_incOf t, _, aluInc_toNat _, ?byte⟩, fun p s => ⟨decode_incP p, ?pair⟩⟩
  case byte => rw [exec_incOf, modify8_eq, aluInc_apply]
  case pair => rw [exec_incP, modify16_eq, aluInc16_eq, State.reg16_toNat, State.setReg16_ofNat]

/-- Settles O38: as for INC, with the difference of R141 read as adding the modulus less 1. -/
theorem decResultAndFlags : Obligations.DecResultAndFlags := by
  refine ⟨fun t s => ⟨decode_decOf t, _, aluDec_toNat _, ?byte⟩, fun p s => ⟨decode_decP p, ?pair⟩⟩
  case byte => rw [exec_decOf, modify8_eq, aluDec_apply]
  case pair => rw [exec_decP, modify16_eq, aluDec16_eq, State.reg16_toNat, State.setReg16_ofNat]

end Sys2Proof.Proofs
end

section
/-! The ALU primitives of 44_carry_flag.md (rules R150, R151), the words of CCF and SCF and which primitive each runs. -/

namespace Sys2Proof

theorem decode_ccf : decode 0x0C0C00 = .ok .ccf :=
  decode_encode (i := .ccf) rfl

theorem decode_scf : decode 0x0D0C00 = .ok .scf :=
  decode_encode (i := .scf) rfl

end Sys2Proof

namespace Sys2Proof.Machine

theorem aluCcf_apply (c : Bool) (f : Flags) : (aluCcf c).apply f = ⟨f.z, false, false, !c⟩ := rfl

theorem aluScf_apply (f : Flags) : aluScf.apply f = ⟨f.z, false, false, true⟩ := rfl

theorem exec_ccf (s : State) : exec .ccf s = flagsOnly (aluCcf s.f.c) s := rfl

theorem exec_scf (s : State) : exec .scf s = flagsOnly aluScf s := rfl

end Sys2Proof.Machine
end

section
/-! The statement of 44_carry_flag.md, settled. -/

namespace Sys2Proof.Proofs

open Sys2Proof Sys2Proof.Machine

/-- Settles O39: both only commit flags, which leaves every register and memory as they were, and the commit keeps Z. -/
theorem carryFlagOperations : Obligations.CarryFlagOperations := by
  refine ⟨decode_ccf, decode_scf, fun s => ⟨?ccf, ?scf⟩⟩
  case ccf => rw [exec_ccf, flagsOnly_eq, aluCcf_apply]
  case scf => rw [exec_scf, flagsOnly_eq, aluScf_apply]

end Sys2Proof.Proofs
end

section
/-! The words of the forms of 45_rotate_shift.md, and of CPL (47_complement.md). -/

namespace Sys2Proof

theorem decode_rra : decode 0x0E0C00 = .ok .rra :=
  decode_encode (i := .rra) rfl

theorem decode_rla : decode 0x0F0C00 = .ok .rla :=
  decode_encode (i := .rla) rfl

theorem decode_rrca : decode 0x100C00 = .ok .rrca :=
  decode_encode (i := .rrca) rfl

theorem decode_rlca : decode 0x110C00 = .ok .rlca :=
  decode_encode (i := .rlca) rfl

theorem decode_cpl : decode 0x1D0C00 = .ok .cpl :=
  decode_encode (i := .cpl) rfl

theorem decode_rlcOf (t : Target8) : decode (targetWord 0x12 t) = .ok (.rlcOf t) := by
  cases t with
  | reg | mhl => exact decode_targetWord (k := .rlc) rfl rfl

theorem decode_rrcOf (t : Target8) : decode (targetWord 0x13 t) = .ok (.rrcOf t) := by
  cases t with
  | reg | mhl => exact decode_targetWord (k := .rrc) rfl rfl

theorem decode_rlOf (t : Target8) : decode (targetWord 0x14 t) = .ok (.rlOf t) := by
  cases t with
  | reg | mhl => exact decode_targetWord (k := .rl) rfl rfl

theorem decode_rrOf (t : Target8) : decode (targetWord 0x15 t) = .ok (.rrOf t) := by
  cases t with
  | reg | mhl => exact decode_targetWord (k := .rr) rfl rfl

theorem decode_slaOf (t : Target8) : decode (targetWord 0x16 t) = .ok (.slaOf t) := by
  cases t with
  | reg | mhl => exact decode_targetWord (k := .sla) rfl rfl

theorem decode_sraOf (t : Target8) : decode (targetWord 0x17 t) = .ok (.sraOf t) := by
  cases t with
  | reg | mhl => exact decode_targetWord (k := .sra) rfl rfl

theorem decode_srlOf (t : Target8) : decode (targetWord 0x18 t) = .ok (.srlOf t) := by
  cases t with
  | reg | mhl => exact decode_targetWord (k := .srl) rfl rfl

theorem decode_swapOf (t : Target8) : decode (targetWord 0x19 t) = .ok (.swapOf t) := by
  cases t with
  | reg | mhl => exact decode_targetWord (k := .swap) rfl rfl

end Sys2Proof
end

section
/-! Moving a byte by one place with a bit entering (45_rotate_shift.md rules R160 to R170): the eleven rotates and shifts
move their byte left or right and differ in the bit that enters and in Z. -/

namespace Sys2Proof.Machine

/-- The byte moved left by one place, `b` entering at bit 0. -/
def shiftLeftIn (b : Bool) (v : Byte) : Byte := (v <<< 1) ||| boolByte b

/-- The byte moved right by one place, `b` entering at bit 7. -/
def shiftRightIn (b : Bool) (v : Byte) : Byte := (v >>> 1) ||| (boolByte b <<< 7)

section
variable (b : Bool) (v : Byte) {k : Nat} (hk : k < 8)

include hk in
theorem shiftLeftIn_getLsbD : (shiftLeftIn b v).getLsbD k = if k = 0 then b else v.getLsbD (k - 1) := by
  simp only [shiftLeftIn, BitVec.getLsbD_or, BitVec.getLsbD_shiftLeft, boolByte_getLsbD]
  by_cases h : k = 0
  · simp [h]
  · simp [h, hk, show ¬ k < 1 by omega]

include hk in
theorem shiftRightIn_getLsbD : (shiftRightIn b v).getLsbD k = if k = 7 then b else v.getLsbD (k + 1) := by
  simp only [shiftRightIn, BitVec.getLsbD_or, BitVec.getLsbD_ushiftRight, BitVec.getLsbD_shiftLeft, boolByte_getLsbD]
  by_cases h : k = 7
  · simp [h]
  · simp [h, show k < 7 by omega, Nat.add_comm 1 k]

include hk in
/-- Where the bit that leaves at the top enters at the bottom, the byte is rotated. -/
theorem shiftLeftIn_msb_getLsbD : (shiftLeftIn (v.getLsbD 7) v).getLsbD k = v.getLsbD ((k + 7) % 8) := by
  rw [shiftLeftIn_getLsbD _ v hk]
  by_cases h : k = 0
  · rw [if_pos h, h]
  · rw [if_neg h, show (k + 7) % 8 = k - 1 by omega]

include hk in
/-- Where the bit that leaves at the bottom enters at the top, the byte is rotated. -/
theorem shiftRightIn_lsb_getLsbD : (shiftRightIn (v.getLsbD 0) v).getLsbD k = v.getLsbD ((k + 1) % 8) := by
  rw [shiftRightIn_getLsbD _ v hk]
  by_cases h : k = 7
  · rw [if_pos h, h]
  · rw [if_neg h, show (k + 1) % 8 = k + 1 by omega]

end

/-! ## The primitives -/

/-- What an accumulator rotate answers: Z, N, H cleared, C the bit shifted out (rules R160 to R163). -/
def AluOut.rotatedA (res : Byte) (out : Bool) : AluOut := ⟨res, ⟨.force0, .force0, .force0, .computed out⟩⟩

/-- What an indexed rotate or shift answers: Z from the result, N and H cleared, C the bit shifted out (rules R164 to
R170). -/
def AluOut.shifted (res : Byte) (out : Bool) : AluOut :=
  ⟨res, ⟨.computed (isZero res), .force0, .force0, .computed out⟩⟩

section
variable (cin : Bool) (old : Byte)

theorem aluRra_eq : aluRra cin old = .rotatedA (shiftRightIn cin old) (old.getLsbD 0) := by
  rw [← bitOf_eq]
  rfl

theorem aluRla_eq : aluRla cin old = .rotatedA (shiftLeftIn cin old) (old.getLsbD 7) := by
  rw [← bitOf_eq]
  rfl

theorem aluRrca_eq : aluRrca old = .rotatedA (shiftRightIn (old.getLsbD 0) old) (old.getLsbD 0) := by
  rw [← bitOf_eq]
  rfl

theorem aluRlca_eq : aluRlca old = .rotatedA (shiftLeftIn (old.getLsbD 7) old) (old.getLsbD 7) := by
  rw [← bitOf_eq]
  rfl

theorem aluRlc_eq : aluRlc old = .shifted (shiftLeftIn (old.getLsbD 7) old) (old.getLsbD 7) := by
  rw [← bitOf_eq]
  rfl

theorem aluRrc_eq : aluRrc old = .shifted (shiftRightIn (old.getLsbD 0) old) (old.getLsbD 0) := by
  rw [← bitOf_eq]
  rfl

theorem aluRl_eq : aluRl cin old = .shifted (shiftLeftIn cin old) (old.getLsbD 7) := by
  rw [← bitOf_eq]
  rfl

theorem aluRr_eq : aluRr cin old = .shifted (shiftRightIn cin old) (old.getLsbD 0) := by
  rw [← bitOf_eq]
  rfl

theorem aluSla_eq : aluSla old = .shifted (shiftLeftIn false old) (old.getLsbD 7) := by
  have hres : shiftLeftIn false old = old <<< 1 := BitVec.or_zero
  rw [hres, ← bitOf_eq]
  rfl

theorem aluSrl_eq : aluSrl old = .shifted (shiftRightIn false old) (old.getLsbD 0) := by
  have hres : shiftRightIn false old = old >>> 1 := BitVec.or_zero
  rw [hres, ← bitOf_eq]
  rfl

/-- Bit 7 alone, in its place. -/
theorem and_0x80_eq : old &&& 0x80 = boolByte (old.getLsbD 7) <<< 7 := by
  apply BitVec.eq_of_getLsbD_eq
  intro i hi
  rw [BitVec.getLsbD_and, BitVec.getLsbD_shiftLeft, boolByte_getLsbD]
  interval_cases i <;> simp

theorem aluSra_eq : aluSra old = .shifted (shiftRightIn (old.getLsbD 7) old) (old.getLsbD 0) := by
  rw [shiftRightIn, ← and_0x80_eq, ← bitOf_eq]
  rfl

theorem aluSwap_toNat : (aluSwap old).result.toNat = old.toNat % 16 * 16 + old.toNat / 16 := by
  have hold := old.isLt
  have hlow : old.toNat / 16 % 16 < 2 ^ 4 := by omega
  simp only [aluSwap, BitVec.toNat_append, BitVec.extractLsb'_toNat, Nat.shiftRight_eq_div_pow]
  rw [← Nat.shiftLeft_add_eq_or_of_lt hlow, Nat.shiftLeft_eq]
  omega

theorem aluSwap_apply (f : Flags) :
    (aluSwap old).flags.apply f = ⟨decide ((aluSwap old).result = 0), false, false, false⟩ := rfl

/-- Exchanging the nibbles twice exchanges nothing. -/
theorem aluSwap_aluSwap : (aluSwap (aluSwap old).result).result = old := by
  have hold := old.isLt
  apply BitVec.eq_of_toNat_eq
  rw [aluSwap_toNat, aluSwap_toNat]
  omega

end

/-! ## The state each form leaves -/

section
variable {s : State} {res : Byte} {out : Bool}

theorem modifyA_of_rotatedA {alu : Byte → AluOut} (h : alu s.a = .rotatedA res out) :
    modifyA alu s = .next { s with a := res, f := ⟨false, false, false, out⟩ } := by
  rw [modifyA_eq, h]
  rfl

theorem modify8_of_shifted {alu : Byte → AluOut} {t : Target8}
    (h : alu (s.operandValue (.target t)) = .shifted res out) :
    modify8 alu t s = .next { s.withTarget res t with f := ⟨decide (res = 0), false, false, out⟩ } := by
  rw [modify8_eq, h]
  rfl

end

section
variable (s : State) (t : Target8)

theorem exec_rra : exec .rra s =
    .next { s with a := shiftRightIn s.f.c s.a, f := ⟨false, false, false, s.a.getLsbD 0⟩ } :=
  modifyA_of_rotatedA (aluRra_eq _ _)

theorem exec_rla : exec .rla s =
    .next { s with a := shiftLeftIn s.f.c s.a, f := ⟨false, false, false, s.a.getLsbD 7⟩ } :=
  modifyA_of_rotatedA (aluRla_eq _ _)

theorem exec_rrca : exec .rrca s =
    .next { s with a := shiftRightIn (s.a.getLsbD 0) s.a, f := ⟨false, false, false, s.a.getLsbD 0⟩ } :=
  modifyA_of_rotatedA (aluRrca_eq _)

theorem exec_rlca : exec .rlca s =
    .next { s with a := shiftLeftIn (s.a.getLsbD 7) s.a, f := ⟨false, false, false, s.a.getLsbD 7⟩ } :=
  modifyA_of_rotatedA (aluRlca_eq _)

theorem exec_rlcOf : exec (.rlcOf t) s = modify8 aluRlc t s := by
  cases t with
  | reg | mhl => rfl

theorem exec_rrcOf : exec (.rrcOf t) s = modify8 aluRrc t s := by
  cases t with
  | reg | mhl => rfl

theorem exec_rlOf : exec (.rlOf t) s = modify8 (aluRl s.f.c) t s := by
  cases t with
  | reg | mhl => rfl

theorem exec_rrOf : exec (.rrOf t) s = modify8 (aluRr s.f.c) t s := by
  cases t with
  | reg | mhl => rfl

theorem exec_slaOf : exec (.slaOf t) s = modify8 aluSla t s := by
  cases t with
  | reg | mhl => rfl

theorem exec_sraOf : exec (.sraOf t) s = modify8 aluSra t s := by
  cases t with
  | reg | mhl => rfl

theorem exec_srlOf : exec (.srlOf t) s = modify8 aluSrl t s := by
  cases t with
  | reg | mhl => rfl

theorem exec_swapOf : exec (.swapOf t) s = modify8 aluSwap t s := by
  cases t with
  | reg | mhl => rfl

theorem exec_cpl : exec .cpl s = .next { s with a := ~~~s.a, f := ⟨s.f.z, true, true, s.f.c⟩ } := rfl

end

/-! ## A target read after it has been written -/

/-- A target reads as what an instruction has just written to it. -/
theorem State.operandValue_withTarget {s : State} (hwf : s.mem.wf = true) (v : Byte) (t : Target8) (f : Flags) :
    { s.withTarget v t with f := f }.operandValue (.target t) = v := by
  cases t with
  | reg r => cases r <;> rfl
  | mhl => exact (Memory.read_write hwf _ _ v).trans (if_pos rfl)

end Sys2Proof.Machine
end

section
/-! Running one word several times (the corner cases of 45_rotate_shift.md rules R160 and R162): where an instruction acts
on A and C alone by a map, `n` of them act by its iterate. -/

namespace Sys2Proof.Machine

/-- A and the C flag. -/
def State.accCarry (s : State) : Byte × Bool := (s.a, s.f.c)

/-- From every state the instruction answers a next state in which A and C have gone through `g`. -/
def ActsOnAccCarry (i : Instr) (g : Byte × Bool → Byte × Bool) : Prop :=
  ∀ s : State, ∃ t, exec i s = .next t ∧ t.accCarry = g s.accCarry

theorem runWords_replicate {w : DIW} {i : Instr} {g : Byte × Bool → Byte × Bool} (hd : decode w = .ok i)
    (hg : ActsOnAccCarry i g) (n : Nat) {s : State} (hf : s.fault = .none) :
    ∃ t, runWords (List.replicate n w) s = .next t ∧ t.accCarry = g^[n] s.accCarry := by
  induction n generalizing s with
  | zero => exact ⟨_, runWords_nil s, rfl⟩
  | succ n ih =>
    obtain ⟨t, ht, hview⟩ := hg { s with inputs := (List.replicate n w).map execRequest, out := ⟨.idle, []⟩ }
    have hfault : t.fault = .none := by
      obtain ⟨t', ht', -, hfault⟩ := exec_keepsPorts i
        { s with inputs := (List.replicate n w).map execRequest, out := ⟨.idle, []⟩ }
      cases ht.symm.trans ht'
      exact hfault.trans hf
    obtain ⟨u, hu, hiter⟩ := ih (s := { t with out := ⟨.ok, t.out.bus⟩ }) hfault
    refine ⟨u, (runWords_cons hf hd ht).trans hu, hiter.trans ?_⟩
    exact congrArg g^[n] hview

/-- Where `g` moves every bit of a ring of `m` bits down by one place, `n` times `g` moves it down by `n` places. -/
theorem iterate_bit {α : Type} {bit : α → Nat → Bool} {g : α → α} {m : Nat}
    (hg : ∀ x, ∀ k < m, bit (g x) k = bit x ((k + 1) % m)) (n : Nat) (x : α) {k : Nat} (hk : k < m) :
    bit (g^[n] x) k = bit x ((k + n) % m) := by
  induction n generalizing x with
  | zero => rw [Function.iterate_zero_apply, Nat.add_zero, Nat.mod_eq_of_lt hk]
  | succ n ih =>
    rw [Function.iterate_succ_apply, ih, hg _ _ (Nat.mod_lt _ (by omega)), Nat.mod_add_mod, Nat.add_assoc]

theorem iterate_bit_full_turn {α : Type} {bit : α → Nat → Bool} {g : α → α} {m : Nat}
    (hg : ∀ x, ∀ k < m, bit (g x) k = bit x ((k + 1) % m)) (x : α) {k : Nat} (hk : k < m) :
    bit (g^[m] x) k = bit x k := by
  rw [iterate_bit hg m x hk, Nat.add_mod_right, Nat.mod_eq_of_lt hk]

/-! ## The maps -/

/-- RRA on A and C (rule R160). -/
def rotateThroughCarry (x : Byte × Bool) : Byte × Bool := (shiftRightIn x.2 x.1, x.1.getLsbD 0)

/-- RRCA on A and C (rule R162). -/
def rotateCopyingToCarry (x : Byte × Bool) : Byte × Bool := (shiftRightIn (x.1.getLsbD 0) x.1, x.1.getLsbD 0)

/-- CPL on A and C (47_complement.md rule R190). -/
def complementAcc (x : Byte × Bool) : Byte × Bool := (~~~x.1, x.2)

/-- CCF on A and C (44_carry_flag.md rule R150). -/
def complementCarry (x : Byte × Bool) : Byte × Bool := (x.1, !x.2)

theorem rra_actsOnAccCarry : ActsOnAccCarry .rra rotateThroughCarry :=
  fun s => ⟨_, exec_rra s, rfl⟩

theorem rrca_actsOnAccCarry : ActsOnAccCarry .rrca rotateCopyingToCarry :=
  fun s => ⟨_, exec_rrca s, rfl⟩

theorem cpl_actsOnAccCarry : ActsOnAccCarry .cpl complementAcc :=
  fun s => ⟨_, exec_cpl s, rfl⟩

theorem ccf_actsOnAccCarry : ActsOnAccCarry .ccf complementCarry :=
  fun s => ⟨_, (exec_ccf s).trans (flagsOnly_eq _ s), rfl⟩

theorem complementAcc_involutive : Function.Involutive complementAcc :=
  fun _ => Prod.ext BitVec.not_not rfl

theorem complementCarry_involutive : Function.Involutive complementCarry :=
  fun x => Prod.ext rfl (Bool.not_not x.2)

/-- The ring of nine bits that RRA turns: A, with C above it. -/
def ringBit (x : Byte × Bool) (k : Nat) : Bool := if k = 8 then x.2 else x.1.getLsbD k

theorem rotateThroughCarry_ringBit (x : Byte × Bool) (k : Nat) (hk : k < 9) :
    ringBit (rotateThroughCarry x) k = ringBit x ((k + 1) % 9) := by
  by_cases h8 : k = 8
  · subst h8
    rfl
  · have hbyte : (shiftRightIn x.2 x.1).getLsbD k = if k = 7 then x.2 else x.1.getLsbD (k + 1) :=
      shiftRightIn_getLsbD x.2 x.1 (by omega)
    simp [ringBit, rotateThroughCarry, h8, hbyte, show (k + 1) % 9 = k + 1 by omega]

theorem ringBit_ext {x y : Byte × Bool} (h : ∀ k < 9, ringBit x k = ringBit y k) : x = y := by
  refine Prod.ext (BitVec.eq_of_getLsbD_eq fun k hk => ?_) (h 8 (by omega))
  have hbit := h k (by omega)
  rwa [ringBit, ringBit, if_neg (by omega), if_neg (by omega)] at hbit

theorem rotateThroughCarry_iterate_nine (x : Byte × Bool) : rotateThroughCarry^[9] x = x :=
  ringBit_ext fun _ hk => iterate_bit_full_turn rotateThroughCarry_ringBit x hk

theorem rotateCopyingToCarry_iterate_eight (x : Byte × Bool) : (rotateCopyingToCarry^[8] x).1 = x.1 :=
  BitVec.eq_of_getLsbD_eq fun _ hk =>
    iterate_bit_full_turn (bit := fun x k => x.1.getLsbD k) (fun x _ hk => shiftRightIn_lsb_getLsbD x.1 hk) x hk

end Sys2Proof.Machine
end

section
/-! The statements of 45_rotate_shift.md, settled. -/

namespace Sys2Proof.Proofs

open Sys2Proof Sys2Proof.Machine

/-- Settles O40: each moves A by one place; what enters is C, or the bit that leaves, which makes it a rotation of A. -/
theorem accumulatorRotates : Obligations.AccumulatorRotates :=
  ⟨decode_rra, decode_rla, decode_rrca, decode_rlca, fun s =>
    ⟨⟨_, fun _ hk => shiftRightIn_getLsbD _ _ hk, exec_rra s⟩,
     ⟨_, fun _ hk => shiftLeftIn_getLsbD _ _ hk, exec_rla s⟩,
     ⟨_, fun _ hk => shiftRightIn_lsb_getLsbD _ hk, exec_rrca s⟩,
     ⟨_, fun _ hk => shiftLeftIn_msb_getLsbD _ hk, exec_rlca s⟩⟩⟩

/-- Settles O41: each moves the target by one place; what enters is the bit that leaves, or C. -/
theorem indexedRotates : Obligations.IndexedRotates :=
  fun t s => ⟨decode_rlcOf t, decode_rrcOf t, decode_rlOf t, decode_rrOf t,
    ⟨_, fun _ hk => shiftLeftIn_msb_getLsbD _ hk, (exec_rlcOf s t).trans (modify8_of_shifted (aluRlc_eq _))⟩,
    ⟨_, fun _ hk => shiftRightIn_lsb_getLsbD _ hk, (exec_rrcOf s t).trans (modify8_of_shifted (aluRrc_eq _))⟩,
    ⟨_, fun _ hk => shiftLeftIn_getLsbD _ _ hk, (exec_rlOf s t).trans (modify8_of_shifted (aluRl_eq _ _))⟩,
    ⟨_, fun _ hk => shiftRightIn_getLsbD _ _ hk, (exec_rrOf s t).trans (modify8_of_shifted (aluRr_eq _ _))⟩⟩

/-- Settles O42: each moves the target by one place; what enters is 0, or for SRA the old bit 7. -/
theorem shiftsFillTheVacatedBit : Obligations.ShiftsFillTheVacatedBit :=
  fun t s => ⟨decode_slaOf t, decode_sraOf t, decode_srlOf t,
    ⟨_, fun _ hk => shiftLeftIn_getLsbD _ _ hk, (exec_slaOf s t).trans (modify8_of_shifted (aluSla_eq _))⟩,
    ⟨_, fun _ hk => shiftRightIn_getLsbD _ _ hk, (exec_sraOf s t).trans (modify8_of_shifted (aluSra_eq _))⟩,
    ⟨_, fun _ hk => shiftRightIn_getLsbD _ _ hk, (exec_srlOf s t).trans (modify8_of_shifted (aluSrl_eq _))⟩⟩

/-- Settles O43: the two nibbles are remainder and quotient by 16. -/
theorem swapExchangesNibbles : Obligations.SwapExchangesNibbles := by
  refine fun t s => ⟨decode_swapOf t, _, aluSwap_toNat _, ?_⟩
  rw [exec_swapOf, modify8_eq, aluSwap_apply]

/-- Settles O48: RRA turns a ring of nine bits and RRCA one of eight, so nine and eight of them are a full turn; SWAP, CPL
and CCF undo themselves. -/
theorem repeatedRotatesRestoreTheByte : Obligations.RepeatedRotatesRestoreTheByte := by
  refine ⟨fun s => ?rra, fun s => ?rrca, fun x s hwf => ?swap, fun s => ?cpl, fun s => ?ccf⟩
  case rra =>
    obtain ⟨t, ht, hview⟩ := runWords_replicate decode_rra rra_actsOnAccCarry 9 (s := { s with fault := .none }) rfl
    rw [rotateThroughCarry_iterate_nine] at hview
    exact ⟨t, ht, congrArg Prod.fst hview, congrArg Prod.snd hview⟩
  case rrca =>
    obtain ⟨t, ht, hview⟩ := runWords_replicate decode_rrca rrca_actsOnAccCarry 8 (s := { s with fault := .none }) rfl
    exact ⟨t, ht, (congrArg Prod.fst hview).trans (rotateCopyingToCarry_iterate_eight _)⟩
  case swap =>
    have hfirst := (exec_swapOf s x).trans (modify8_eq aluSwap x s)
    refine ⟨_, _, hfirst, (exec_swapOf _ x).trans (modify8_eq aluSwap x _), ?_⟩
    rw [State.operandValue_withTarget ?wf, State.operandValue_withTarget hwf, aluSwap_aluSwap]
    case wf =>
      obtain ⟨t, ht, haccess⟩ := exec_accesses s (.swapOf x)
      cases hfirst.symm.trans ht
      exact haccess.mem_wf hwf
  case cpl =>
    obtain ⟨t, ht, hview⟩ := runWords_replicate decode_cpl cpl_actsOnAccCarry 2 (s := { s with fault := .none }) rfl
    exact ⟨t, ht, congrArg Prod.fst (hview.trans (complementAcc_involutive _))⟩
  case ccf =>
    obtain ⟨t, ht, hview⟩ := runWords_replicate decode_ccf ccf_actsOnAccCarry 2 (s := { s with fault := .none }) rfl
    exact ⟨t, ht, congrArg Prod.snd (hview.trans (complementCarry_involutive _))⟩

end Sys2Proof.Proofs
end

section
/-! The ALU primitives of 46_bit.md (rules R180 to R182) bit by bit, the words of their forms and which primitive each
form runs. -/

namespace Sys2Proof

/-- The target of a descriptor that names an 8-bit target (30_encoding.md rule R63). -/
def Target8.target : Target8 → Target
  | .reg r => r.target
  | .mhl => .mhl

theorem targetDigit_eq (t : Target8) : targetDigit t = targetCode t.target := by
  cases t with
  | reg r => exact targetDigit_reg r
  | mhl => rfl

/-- `0xkk8tvv`, as the fields of a word with a bit index. -/
theorem packFields_bitIndex (kk : BitVec 8) (t : BitVec 4) (v : Byte) :
    packFields kk ptagBitIndex 0 t v = kk ++ 0x8#4 ++ t ++ v :=
  packFields_eq_nibbles ..

section
variable {n : Nat} (hn : n < 8)

include hn in
/-- A bit index leaves the high digit of PVAL zero. -/
theorem zero_append_bitIndex : 0x0#4 ++ BitVec.ofNat 4 n = BitVec.ofNat 8 n := by
  apply BitVec.eq_of_toNat_eq
  simp only [BitVec.toNat_append, BitVec.toNat_ofNat, Nat.zero_mod, Nat.zero_shiftLeft, Nat.zero_or]
  omega

include hn in
/-- `0xkk8t0n` is the word of the descriptor with the bit index `n`. -/
theorem bitWord_kindCode (k : Kind) (t : Target8) :
    bitWord (kindCode k) t n = (Descriptor.bitIndexed k t.target n).word := by
  rw [bitWord, targetDigit_eq, BitVec.append_assoc, BitVec.cast_eq, zero_append_bitIndex hn]
  exact (packFields_bitIndex ..).symm

include hn in
/-- The word of a bit index and a target under a kind's code decodes to that kind's form with them. -/
theorem decode_bitWord {k : Kind} {t : Target8} {i : Instr} (hd : i.descriptor = .bitIndexed k t.target n) :
    decode (bitWord (kindCode k) t n) = .ok i := by
  have hpayload : ∀ m, (Descriptor.bitIndexed k t.target n).payload = .bitIndex m → m < 8 := by
    rintro _ ⟨⟩
    exact hn
  rw [bitWord_kindCode hn, decode_word hpayload, ← hd]
  exact resolve_descriptor i

variable (t : Target8)

include hn in
theorem decode_bitOf : decode (bitWord 0x1A t n) = .ok (.bitOf n t) := by
  cases t with
  | reg | mhl => exact decode_bitWord hn (k := .bit) rfl

include hn in
theorem decode_setOf : decode (bitWord 0x1B t n) = .ok (.setOf n t) := by
  cases t with
  | reg | mhl => exact decode_bitWord hn (k := .set) rfl

include hn in
theorem decode_resetOf : decode (bitWord 0x1C t n) = .ok (.resetOf n t) := by
  cases t with
  | reg | mhl => exact decode_bitWord hn (k := .reset) rfl

end

end Sys2Proof

namespace Sys2Proof.Machine

section
variable (n : Nat) (old : Byte)

theorem aluBit_apply (f : Flags) : (aluBit n old).apply f = ⟨!old.getLsbD n, false, true, f.c⟩ := by
  rw [← bitOf_eq]
  rfl

/-- The mask of SET and RESET has the bit `n` alone. -/
theorem bitMask_getLsbD {k : Nat} (hk : k < 8) : ((1#8) <<< n).getLsbD k = decide (k = n) := by
  rw [← BitVec.twoPow_eq, BitVec.getLsbD_twoPow, Bool.eq_iff_iff]
  simp only [Bool.and_eq_true, decide_eq_true_eq]
  omega

theorem aluSet_getLsbD {k : Nat} (hk : k < 8) :
    (aluSet n old).result.getLsbD k = if k = n then true else old.getLsbD k := by
  rw [aluSet, BitVec.getLsbD_or, bitMask_getLsbD n hk]
  by_cases h : k = n
  · simp [h]
  · simp [h]

theorem aluReset_getLsbD {k : Nat} (hk : k < 8) :
    (aluReset n old).result.getLsbD k = if k = n then false else old.getLsbD k := by
  rw [aluReset, BitVec.getLsbD_and, BitVec.getLsbD_not, bitMask_getLsbD n hk]
  by_cases h : k = n
  · simp [h]
  · simp [h, hk]

end

section
variable (s : State) (n : Nat) (t : Target8)

theorem exec_bitOf : exec (.bitOf n t) s = testOperand (aluBit n) (.target t) s := by
  cases t with
  | reg | mhl => rfl

theorem exec_setOf : exec (.setOf n t) s = modify8 (aluSet n) t s := by
  cases t with
  | reg | mhl => rfl

theorem exec_resetOf : exec (.resetOf n t) s = modify8 (aluReset n) t s := by
  cases t with
  | reg | mhl => rfl

/-- A read-modify-write that commits no flag changes nothing but its target. -/
theorem modify8_of_keepAll {alu : Byte → AluOut} (h : (alu (s.operandValue (.target t))).flags = .keepAll) :
    modify8 alu t s = .next (s.withTarget (alu (s.operandValue (.target t))).result t) := by
  rw [modify8_eq, h, FlagCommit.apply_keepAll, ← s.withTarget_f _ t]

end

end Sys2Proof.Machine
end

section
/-! The statements of 46_bit.md, settled. -/

namespace Sys2Proof.Proofs

open Sys2Proof Sys2Proof.Machine

/-- Settles O44: BIT reads its operand and commits flags only. -/
theorem bitTestsWithoutWriting : Obligations.BitTestsWithoutWriting := by
  refine fun n t s hn => ⟨decode_bitOf hn t, ?_⟩
  rw [exec_bitOf, testOperand_eq, aluBit_apply]

/-- Settles O45: the mask has one bit, and the read-modify-write commits no flag, whatever the bit was. -/
theorem setAndResetWriteOneBit : Obligations.SetAndResetWriteOneBit :=
  fun n t s hn => ⟨decode_setOf hn t, decode_resetOf hn t,
    ⟨_, fun _ hk => aluSet_getLsbD n _ hk, (exec_setOf s n t).trans (modify8_of_keepAll s t rfl)⟩,
    ⟨_, fun _ hk => aluReset_getLsbD n _ hk, (exec_resetOf s n t).trans (modify8_of_keepAll s t rfl)⟩⟩

end Sys2Proof.Proofs
end

section
/-! The statement of 47_complement.md, settled. -/

namespace Sys2Proof.Proofs

open Sys2Proof Sys2Proof.Machine

/-- Settles O46: the bitwise complement of a byte is its difference from `0xFF`, and CPL commits N and H only. -/
theorem cplComplementsA : Obligations.CplComplementsA :=
  ⟨decode_cpl, fun s => ⟨~~~s.a, BitVec.toNat_not, exec_cpl s⟩⟩

end Sys2Proof.Proofs
end

section
/-! A word that decodes is the word of its instruction (30_encoding.md sections 1 to 4): what resolves is the descriptor of
the instruction it resolves to, and a bit index that has a word makes the instruction well formed. -/

namespace Sys2Proof

/-- The converse of `bitIndex_lt_of_wellFormed`. -/
theorem wellFormed_of_bitIndex_lt {i : Instr} (hi : ∀ n, i.descriptor.payload = .bitIndex n → n < 8) :
    i.wellFormed = true := by
  cases i with
  | bitR n | bitM n | setR n | setM n | resetR n | resetM n => exact decide_eq_true (hi n rfl)
  | _ => rfl

/-- The dispatch of rule R93 loses no field of a descriptor: the converse of `resolve_descriptor`. -/
theorem descriptor_of_resolve {d : Descriptor} {i : Instr} (hd : ∀ n, d.payload = .bitIndex n → n < 8)
    (h : resolve d = .ok i) : i.descriptor = d := by
  obtain ⟨j, hj, hdesc⟩ := resolve_of_legal (legal_of_resolve hd h)
  cases h.symm.trans hj
  exact hdesc

theorem encode_of_decode {w : DIW} {i : Instr} (h : decode w = .ok i) : i.wellFormed = true ∧ encode i = w := by
  obtain ⟨k, t, p, hr, hk, ht, hp, hres⟩ := decode_ok_cases h
  have hindex : ∀ n, p = .bitIndex n → n < 8 := fun n hn => bitIndex_lt_of_payloadOfFields (hn ▸ hp)
  have hdesc : i.descriptor = ⟨k, t, p⟩ := descriptor_of_resolve hindex hres
  have hpayload : i.descriptor.payload = p := congrArg Descriptor.payload hdesc
  refine ⟨wellFormed_of_bitIndex_lt (hpayload ▸ hindex), ?_⟩
  rw [encode, hdesc, word_of_fields hr hk ht hp]

theorem decode_of_wfWord_eq_false {w : DIW} (hw : wfWord w = false) : ∃ why, decode w = .malformed why := by
  cases hd : decode w with
  | malformed why => exact ⟨why, rfl⟩
  | ok i =>
    rw [wfWord_of_decode hd] at hw
    cases hw

end Sys2Proof
end

section
/-! The statements of 30_encoding.md on encoding and decoding back, settled. -/

namespace Sys2Proof.Proofs

open Sys2Proof

/-- Settles O2: the word's fields name the descriptor, and the dispatch undoes the factories. -/
theorem decodeOfEncodeIsTheInstruction : Obligations.DecodeOfEncodeIsTheInstruction :=
  fun _ hi => decode_encode hi

/-- Settles O3: the dispatch loses no field, and a descriptor's word is its fields. -/
theorem encodeOfDecodeIsTheWord : Obligations.EncodeOfDecodeIsTheWord :=
  fun _ _ h => encode_of_decode h

/-- Settles O1: sixteen fixed words, each decoded. -/
theorem specWordsDecodeAsWritten : Obligations.SpecWordsDecodeAsWritten := by
  unfold Obligations.SpecWordsDecodeAsWritten
  decide

end Sys2Proof.Proofs
end

section
/-! Runs of the machine (60_exceptions.md rules R203, R215; 70_reset_and_hazards.md rules R220, R227): every step answers a
next state, so every run does; on a faulted CORE each step without `rst` only takes a request off the inputs. The
invariant of Safety.lean holds after power-on. -/

namespace Sys2Proof.Machine

theorem acknowledge_exec_answers (i : Instr) (s : State) : ∃ t, acknowledge (exec i s) = .next t := by
  obtain ⟨t, ht, -⟩ := exec_keepsPorts i s
  exact ⟨_, by rw [ht, acknowledge_next]⟩

theorem step_answers (s : State) : ∃ t, step s = .next t := by
  obtain ⟨-, h⟩ | ⟨q, rest, -, ⟨-, h⟩ | ⟨-, -, h⟩ | ⟨-, -, -, h⟩ | ⟨-, -, -, -, h⟩ | ⟨-, -, -, i, -, h⟩⟩ := step_cases s
  · exact ⟨_, h⟩
  · exact ⟨_, h⟩
  · exact ⟨_, h⟩
  · exact ⟨_, h⟩
  · exact ⟨_, h⟩
  · rw [h]
    exact acknowledge_exec_answers i _

theorem runSteps_answers (n : Nat) (s : State) : ∃ t, runSteps n s = .next t := by
  induction n generalizing s with
  | zero => exact ⟨s, rfl⟩
  | succ n ih =>
    obtain ⟨t, ht⟩ := step_answers s
    rw [runSteps_succ n ht]
    exact ih t

/-- The step after a malformed word (rules R200, R201), from rule R69's check on the word. -/
theorem step_of_wfWord_eq_false {s : State} {w : DIW} {rest : List Request} (hin : s.inputs = ⟨false, true, w⟩ :: rest)
    (hf : s.fault = .none) (hw : wfWord w = false) :
    step s = .next ((s.beginStep rest).takeMalformed (kindField w) (tgtField w)) := by
  obtain ⟨why, hd⟩ := decode_of_wfWord_eq_false hw
  exact step_malformed (q := ⟨false, true, w⟩) hin rfl rfl hf hd

/-- `t` is `s` with `n` requests taken off the inputs, nothing on the bus and no acknowledgement. -/
def DropsRequests (n : Nat) (s t : State) : Prop :=
  ∃ o : StepOutcome, o ≠ .ok ∧ t = { s with inputs := s.inputs.drop n, out := ⟨o, []⟩ }

theorem DropsRequests.trans {m n : Nat} {s t u : State} (hst : DropsRequests m s t) (htu : DropsRequests n t u) :
    DropsRequests (m + n) s u := by
  obtain ⟨_, -, rfl⟩ := hst
  obtain ⟨o, ho, rfl⟩ := htu
  exact ⟨o, ho, by simp only [List.drop_drop]⟩

theorem step_of_faulted {s : State} (hf : s.fault ≠ .none) (hrst : ∀ q ∈ s.inputs, q.rst = false) :
    ∃ t, step s = .next t ∧ DropsRequests 1 s t := by
  cases hin : s.inputs with
  | nil => exact ⟨_, step_idle hin, .idle, nofun, by rw [hin]; rfl⟩
  | cons q rest =>
    have hq : q.rst = false := hrst q (by simp [hin])
    cases hreq : q.req with
    | false => exact ⟨_, step_noRequest hin hq hreq, .idle, nofun, by rw [hin]; rfl⟩
    | true => exact ⟨_, step_refused hin hq hreq hf, .refused, nofun, by rw [hin]; rfl⟩

theorem runSteps_of_faulted (n : Nat) {s : State} (hf : s.fault ≠ .none) (hrst : ∀ q ∈ s.inputs, q.rst = false) :
    ∃ t, runSteps (n + 1) s = .next t ∧ DropsRequests (n + 1) s t := by
  induction n generalizing s with
  | zero =>
    obtain ⟨t, ht, hdrop⟩ := step_of_faulted hf hrst
    exact ⟨t, runSteps_succ 0 ht, hdrop⟩
  | succ n ih =>
    obtain ⟨t, ht, hdrop⟩ := step_of_faulted hf hrst
    obtain ⟨u, hu, hrest⟩ : ∃ u, runSteps (n + 1) t = .next u ∧ DropsRequests (n + 1) t u := by
      obtain ⟨_, -, rfl⟩ := hdrop
      exact ih hf fun q hq => hrst q (List.mem_of_mem_drop hq)
    refine ⟨u, (runSteps_succ _ ht).trans hu, ?_⟩
    rw [Nat.add_comm]
    exact hdrop.trans hrest

theorem faultPort_of_faulted {s : State} (hf : s.fault ≠ .none) : s.faultPort = true := by
  cases h : s.fault with
  | none => exact absurd h hf
  | faulted => simp [State.faultPort, h]

theorem powerOn_inv {initMem : Memory} (h : initMem.wf = true) : (State.powerOn initMem).Inv :=
  ⟨h, rfl, rfl⟩

end Sys2Proof.Machine
end

section
/-! The statements of 60_exceptions.md and 70_reset_and_hazards.md on single steps and runs, settled. -/

namespace Sys2Proof.Proofs

open Sys2Proof Sys2Proof.Machine

/-- Settles O15: such a word decodes to none, and the step takes the fault on the two fields. -/
theorem malformedWordOnlySetsTheFaultLatch : Obligations.MalformedWordOnlySetsTheFaultLatch :=
  fun _ _ _ hin hf hw => ⟨_, step_of_wfWord_eq_false hin hf hw, rfl, rfl, rfl, rfl, rfl, rfl, rfl⟩

/-- Settles O16: by induction on the number of steps; the latch stays faulted, so each step is idle or a refusal. -/
theorem faultedCoreRefusesUntilReset : Obligations.FaultedCoreRefusesUntilReset := by
  intro n s hf hrst
  obtain ⟨_, ht, o, hack, rfl⟩ := runSteps_of_faulted n hf hrst
  exact ⟨_, ht, rfl, rfl, decide_eq_false hack, faultPort_of_faulted hf⟩

/-- Settles O20: each of the things a step can do is a next state. -/
theorem noRunEverStops : Obligations.NoRunEverStops :=
  runSteps_answers

/-- Settles O17: the latch decides before the word is looked at. -/
theorem refusalComesBeforeDecoding : Obligations.RefusalComesBeforeDecoding :=
  fun _ _ _ hin => ⟨step_refused hin rfl rfl, step_of_wfWord_eq_false hin⟩

/-- Settles O19: all that such a step does is to begin. -/
theorem withoutRequestCoreHoldsItsState : Obligations.WithoutRequestCoreHoldsItsState := by
  refine ⟨fun s w rest hin => step_noRequest hin rfl rfl, fun s hin => ?_, step_idle rfl⟩
  rw [step_idle hin, State.beginStep, ← hin]

/-- Settles O18: `rst` is looked at before `req`. -/
theorem resetWinsAndKeepsMemory : Obligations.ResetWinsAndKeepsMemory := by
  intro s req w rest hin
  refine ⟨_, step_reset hin rfl, fun r => ?_, rfl, rfl, rfl, rfl, rfl, rfl, rfl, rfl⟩
  cases r <;> rfl

/-- Settles O21: the reset state is the power-on state whose memory lists nothing. -/
theorem invariantHoldsAtReset : Obligations.InvariantHoldsAtReset :=
  ⟨powerOn_inv Memory.wf_nil, fun _ h => powerOn_inv h⟩

end Sys2Proof.Proofs
end

section
/-! Running with another Z, N and H (10_state.md section 2: no kind reads Z, N or H): every read of the state is blind to
the flags, and what an instruction hands to its shape (A, HL, C) does not depend on those three, so each shape answers
alike but for the flags its commit keeps. -/

namespace Sys2Proof.Machine

/-- The state with other flags, and nothing else changed. -/
def State.withFlags (s : State) (f : Flags) : State := { s with f := f }

/-- Of the flag a selection commits, only a kept one shows what was there before. -/
theorem FlagSel.apply_eq_ite (sel : FlagSel) (old old' : Bool) :
    sel.apply old' = if sel.entry = .kept then old' else sel.apply old := by
  cases sel with
  | keep | force0 | force1 | computed => rfl

section
variable (s : State) (f : Flags)

@[simp] theorem State.reg8_withFlags (r : Reg8) : (s.withFlags f).reg8 r = s.reg8 r := by cases r <;> rfl

@[simp] theorem State.reg16_withFlags (p : Reg16) : (s.withFlags f).reg16 p = s.reg16 p := by cases p <;> rfl

@[simp] theorem State.operandValue_withFlags (o : Operand8) : (s.withFlags f).operandValue o = s.operandValue o := by
  match o with
  | .target (.reg r) => exact s.reg8_withFlags f r
  | .target .mhl => rfl
  | .imm _ => rfl

@[simp] theorem State.operandAccess_withFlags (o : Operand8) :
    (s.withFlags f).operandAccess o = s.operandAccess o := by
  match o with
  | .target (.reg _) => rfl
  | .target .mhl => rfl
  | .imm _ => rfl

theorem State.setReg16_withFlags (p : Reg16) (v : Word16) :
    (s.withFlags f).setReg16 p v = (s.setReg16 p v).withFlags f := by
  cases p <;> rfl

theorem State.withTarget_withFlags (v : Byte) (t : Target8) :
    (s.withFlags f).withTarget v t = (s.withTarget v t).withFlags f := by
  cases t with
  | reg r => cases r <;> rfl
  | mhl => rfl

end

section
variable (s : State) (z n h : Bool) {row : FlagRow}

/-- The state with the three flags as given, and C as it is. -/
def State.withZNH : State := s.withFlags ⟨z, n, h, s.f.c⟩

/-- The answer `o` from `s` and the answer `o'` from the other Z, N and H are next states that differ in the flags the row
keeps only; those hold what each run had. -/
def IgnoresZNH (row : FlagRow) (o o' : Host.Outcome State Fault Refusal) : Prop :=
  ∃ t u, o = .next t ∧ o' = .next u ∧ u = t.withFlags u.f ∧ u.f.c = t.f.c ∧
    (u.f.z = if row.z = .kept then z else t.f.z) ∧ (u.f.n = if row.n = .kept then n else t.f.n) ∧
    (u.f.h = if row.h = .kept then h else t.f.h)

/-- Two next states that are alike but for the flags of one commit. -/
theorem ignoresZNH_of_commit {t : State} {u : FlagCommit} {o o' : Host.Outcome State Fault Refusal}
    (ho : o = .next t) (hf : t.f = u.apply s.f) (ho' : o' = .next (t.withFlags (u.apply ⟨z, n, h, s.f.c⟩)))
    (hrow : u.row = row) : IgnoresZNH z n h row o o' := by
  subst hrow
  refine ⟨t, _, ho, ho', rfl, ?_⟩
  rw [hf]
  exact ⟨rfl, u.z.apply_eq_ite s.f.z z, u.n.apply_eq_ite s.f.n n, u.h.apply_eq_ite s.f.h h⟩

theorem accumulate_ignoresZNH {alu : Byte → AluOut} (o : Operand8) (hrow : ∀ v, (alu v).flags.row = row) :
    IgnoresZNH z n h row (accumulate alu o s) (accumulate alu o (s.withZNH z n h)) := by
  refine ignoresZNH_of_commit s z n h (accumulate_eq alu o s) rfl ?_ (hrow _)
  rw [accumulate_eq, State.withZNH, State.operandValue_withFlags, State.operandAccess_withFlags]
  rfl

theorem testOperand_ignoresZNH {alu : Byte → FlagCommit} (o : Operand8) (hrow : ∀ v, (alu v).row = row) :
    IgnoresZNH z n h row (testOperand alu o s) (testOperand alu o (s.withZNH z n h)) := by
  refine ignoresZNH_of_commit s z n h (testOperand_eq alu o s) rfl ?_ (hrow _)
  rw [testOperand_eq, State.withZNH, State.operandValue_withFlags, State.operandAccess_withFlags]
  rfl

theorem modify8_ignoresZNH {alu : Byte → AluOut} (t : Target8) (hrow : ∀ v, (alu v).flags.row = row) :
    IgnoresZNH z n h row (modify8 alu t s) (modify8 alu t (s.withZNH z n h)) := by
  refine ignoresZNH_of_commit s z n h (modify8_eq alu t s) rfl ?_ (hrow _)
  rw [modify8_eq, State.withZNH, State.operandValue_withFlags, State.withTarget_withFlags]
  rfl

theorem modify16_ignoresZNH (alu : Word16 → Word16) (p : Reg16) :
    IgnoresZNH z n h FlagCommit.keepAll.row (modify16 alu p s) (modify16 alu p (s.withZNH z n h)) := by
  refine ignoresZNH_of_commit s z n h (modify16_eq alu p s) (s.f_setReg16 p _) ?_ rfl
  rw [modify16_eq, State.withZNH, State.reg16_withFlags, State.setReg16_withFlags]
  rfl

theorem accumulate16_ignoresZNH {alu : Word16 → Alu16Out} (p : Reg16) (hrow : ∀ v, (alu v).flags.row = row) :
    IgnoresZNH z n h row (accumulate16 alu p s) (accumulate16 alu p (s.withZNH z n h)) := by
  refine ignoresZNH_of_commit s z n h (accumulate16_eq alu p s) rfl ?_ (hrow _)
  rw [accumulate16_eq, State.withZNH, State.reg16_withFlags]
  rfl

theorem modifyA_ignoresZNH {alu : Byte → AluOut} (hrow : ∀ v, (alu v).flags.row = row) :
    IgnoresZNH z n h row (modifyA alu s) (modifyA alu (s.withZNH z n h)) :=
  ignoresZNH_of_commit s z n h (modifyA_eq alu s) rfl (modifyA_eq alu _) (hrow _)

theorem flagsOnly_ignoresZNH {u : FlagCommit} (hrow : u.row = row) :
    IgnoresZNH z n h row (flagsOnly u s) (flagsOnly u (s.withZNH z n h)) :=
  ignoresZNH_of_commit s z n h (flagsOnly_eq u s) rfl (flagsOnly_eq u _) hrow

/-- Every instruction is one of the shapes, and what it hands to its shape (A, HL, C) does not depend on Z, N or H. -/
theorem exec_ignoresZNH (i : Instr) : IgnoresZNH z n h (flagTable i) (exec i s) (exec i (s.withZNH z n h)) := by
  cases i with
  | addR | addM | addI | adcR | adcM | adcI | subR | subM | subI | sbcR | sbcM | sbcI
  | andR | andM | andI | orR | orM | orI | xorR | xorM | xorI => exact accumulate_ignoresZNH s z n h _ fun _ => rfl
  | cpR | cpM | cpI | bitR | bitM => exact testOperand_ignoresZNH s z n h _ fun _ => rfl
  | addhlP => exact accumulate16_ignoresZNH s z n h _ fun _ => rfl
  | incP | decP => exact modify16_ignoresZNH s z n h _ _
  | incR | incM | decR | decM | rlcR | rlcM | rrcR | rrcM | rlR | rlM | rrR | rrM
  | slaR | slaM | sraR | sraM | srlR | srlM | swapR | swapM
  | setR | setM | resetR | resetM => exact modify8_ignoresZNH s z n h _ fun _ => rfl
  | rra | rla | rrca | rlca | cpl => exact modifyA_ignoresZNH s z n h fun _ => rfl
  | ccf | scf => exact flagsOnly_ignoresZNH s z n h rfl

end

end Sys2Proof.Machine
end

section
/-! The statement of 10_state.md on the flags that are not read, settled. -/

namespace Sys2Proof.Proofs

open Sys2Proof Sys2Proof.Machine

/-- Settles O29: every instruction is one of seven shapes, and each of them ignores Z, N and H. -/
theorem noInstructionReadsZNH : Obligations.NoInstructionReadsZNH :=
  fun i s z n h => exec_ignoresZNH s z n h i

end Sys2Proof.Proofs
end

section
/-! Reaching a state by CORE's own instructions (70_reset_and_hazards.md rule R222). Instructions that make no bus access
act on the machine alike whatever stands on the ports, so a path of them is a run of their words. -/

namespace Sys2Proof.Machine

/-- The state with other waiting requests and other outputs, and nothing else changed. -/
def State.withPorts (s : State) (inputs : List Request) (out : Outputs) : State :=
  { s with inputs := inputs, out := out }

/-- A well-formed instruction goes from `s` to `t`, whatever stands on the ports, and leaves the ports alone. -/
def InstrStep (s t : State) : Prop :=
  ∃ i : Instr, i.wellFormed = true ∧
    ∀ inputs out, exec i (s.withPorts inputs out) = .next (t.withPorts inputs out)

/-- `t` is reached from `s` by instructions of CORE. -/
abbrev Reaches : State → State → Prop := Relation.ReflTransGen InstrStep

theorem wfWord_encode {i : Instr} (hi : i.wellFormed = true) : wfWord (encode i) = true :=
  wfWord_of_decode (decode_encode hi)

theorem InstrStep.fault_eq {s t : State} (h : InstrStep s t) : t.fault = s.fault := by
  obtain ⟨i, -, hexec⟩ := h
  obtain ⟨u, hu, -, hfault⟩ := exec_keepsPorts i (s.withPorts [] ⟨.idle, []⟩)
  cases (hexec _ _).symm.trans hu
  exact hfault

/-- The words of a path, sent in order, end where the path does. -/
theorem Reaches.exists_words {s t : State} (h : Reaches s t) (hf : s.fault = .none) (out : Outputs) :
    ∃ ws out', (∀ w ∈ ws, wfWord w = true) ∧ runWords ws (s.withPorts [] out) = .next (t.withPorts [] out') := by
  induction h using Relation.ReflTransGen.head_induction_on generalizing out with
  | refl => exact ⟨[], out, nofun, rfl⟩
  | head hstep _ ih =>
    obtain ⟨ws, out', hws, hrun⟩ := ih (hstep.fault_eq.trans hf) ⟨.ok, []⟩
    obtain ⟨i, hi, hexec⟩ := hstep
    refine ⟨encode i :: ws, out', List.forall_mem_cons.mpr ⟨wfWord_encode hi, hws⟩, ?_⟩
    exact (runWords_cons hf (decode_encode hi) (hexec _ _)).trans hrun

end Sys2Proof.Machine
end

section
/-! Every state with the same PC, latch and memory is reached: the pairs and SP by INC of the pair, which changes no flag;
the flags by BIT and DEC of the register C as a scratch register, restored after, and by SCF, CCF and CPL; A by XOR. -/

namespace Sys2Proof.Machine

variable (s : State)

/-! ## The 16-bit registers -/

theorem State.setReg16_setReg16 (p : Reg16) (v w : Word16) : (s.setReg16 p v).setReg16 p w = s.setReg16 p w := by
  cases p <;> rfl

theorem State.setReg16_reg16 (p : Reg16) : s.setReg16 p (s.reg16 p) = s := by
  cases p <;> simp

theorem State.setReg16_withPorts (p : Reg16) (v : Word16) (inputs : List Request) (out : Outputs) :
    (s.withPorts inputs out).setReg16 p v = (s.setReg16 p v).withPorts inputs out := by
  cases p <;> rfl

theorem State.reg16_withPorts (p : Reg16) (inputs : List Request) (out : Outputs) :
    (s.withPorts inputs out).reg16 p = s.reg16 p := by
  cases p <;> rfl

theorem aluInc16_eq_add_one (v : Word16) : aluInc16 v = v + 1 := by
  rw [aluInc16, BitVec.ofNat_add, BitVec.ofNat_toNat, BitVec.setWidth_eq]
  rfl

theorem instrStep_incP (p : Reg16) : InstrStep s (s.setReg16 p (s.reg16 p + 1)) := by
  refine ⟨.incP p, rfl, fun inputs out => ?_⟩
  rw [exec_incP, modify16_eq, State.reg16_withPorts, State.setReg16_withPorts, aluInc16_eq_add_one]

theorem reaches_setReg16_add (p : Reg16) (n : Nat) :
    Reaches s (s.setReg16 p (s.reg16 p + BitVec.ofNat 16 n)) := by
  induction n with
  | zero =>
    have hself : s.setReg16 p (s.reg16 p + 0#16) = s := by rw [BitVec.add_zero, State.setReg16_reg16]
    rw [hself]
  | succ n ih =>
    have hstep := instrStep_incP (s.setReg16 p (s.reg16 p + BitVec.ofNat 16 n)) p
    rw [State.reg16_setReg16, State.setReg16_setReg16, BitVec.add_assoc] at hstep
    rw [BitVec.ofNat_add]
    exact ih.tail hstep

/-- INC of the pair, as often as the wanted value lies above the present one modulo 65536. -/
theorem reaches_setReg16 (p : Reg16) (v : Word16) : Reaches s (s.setReg16 p v) := by
  have h := reaches_setReg16_add s p (v - s.reg16 p).toNat
  rwa [BitVec.ofNat_toNat, BitVec.setWidth_eq, BitVec.add_comm, BitVec.sub_add_cancel] at h

theorem reaches_setReg8_c (v : Byte) : Reaches s (s.setReg8 .c v) := by
  have h := reaches_setReg16 s .bc (pairOf s.b v)
  rwa [State.setReg16_bc, highByte_pairOf, lowByte_pairOf] at h

/-! ## The flags -/

/-- An instruction that sets the flags from a value `v` of the register C, and may leave another there, sets them from any
state. -/
theorem reaches_withFlags_of_scratch {f : Flags} (v v' : Byte)
    (h : InstrStep (s.setReg8 .c v) ((s.withFlags f).setReg8 .c v')) : Reaches s (s.withFlags f) :=
  ((reaches_setReg8_c s v).tail h).trans (reaches_setReg8_c ((s.withFlags f).setReg8 .c v') s.c)

theorem reaches_bit_flags (v : Byte) : Reaches s (s.withFlags ((aluBit 0 v).apply s.f)) :=
  reaches_withFlags_of_scratch s v v ⟨.bitR 0 .c, rfl, fun _ _ => rfl⟩

theorem reaches_dec_flags (v : Byte) : Reaches s (s.withFlags ((aluDec v).flags.apply s.f)) :=
  reaches_withFlags_of_scratch s v (aluDec v).result ⟨.decR .c, rfl, fun _ _ => rfl⟩

/-- BIT of a clear or a set bit: Z as wanted, N cleared, H set, C kept. -/
theorem reaches_by_bit (z : Bool) : Reaches s (s.withFlags ⟨z, false, true, s.f.c⟩) := by
  cases z with
  | true => exact reaches_bit_flags s 0
  | false => exact reaches_bit_flags s 1

/-- DEC of 1 or of 2: Z as wanted, N set, H cleared, C kept. -/
theorem reaches_by_dec (z : Bool) : Reaches s (s.withFlags ⟨z, true, false, s.f.c⟩) := by
  cases z with
  | true => exact reaches_dec_flags s 1
  | false => exact reaches_dec_flags s 2

/-- SCF, and CCF after it where C is to be clear: N and H cleared, Z kept. -/
theorem reaches_by_scf_ccf (c : Bool) : Reaches s (s.withFlags ⟨s.f.z, false, false, c⟩) := by
  have hscf : InstrStep s (s.withFlags ⟨s.f.z, false, false, true⟩) := ⟨.scf, rfl, fun _ _ => rfl⟩
  cases c with
  | true => exact .single hscf
  | false => exact (Relation.ReflTransGen.single hscf).tail ⟨.ccf, rfl, fun _ _ => rfl⟩

/-- CPL twice: N and H set, Z and C kept. -/
theorem reaches_by_cpl_cpl : Reaches s (s.withFlags ⟨s.f.z, true, true, s.f.c⟩) := by
  have hfirst : InstrStep s { s with a := ~~~s.a, f := ⟨s.f.z, true, true, s.f.c⟩ } := ⟨.cpl, rfl, fun _ _ => rfl⟩
  refine (Relation.ReflTransGen.single hfirst).tail ⟨.cpl, rfl, fun inputs out => ?_⟩
  rw [exec_cpl]
  simp [State.withPorts, State.withFlags]

/-- N and H, with Z and C kept, by one of the four ways. -/
theorem reaches_by_n_h (n h : Bool) : Reaches s (s.withFlags ⟨s.f.z, n, h, s.f.c⟩) := by
  match n, h with
  | false, false => exact reaches_by_scf_ccf s s.f.c
  | false, true => exact reaches_by_bit s s.f.z
  | true, false => exact reaches_by_dec s s.f.z
  | true, true => exact reaches_by_cpl_cpl s

/-- Z first, then C, then N and H: each way keeps what stands before it. -/
theorem reaches_withFlags (f : Flags) : Reaches s (s.withFlags f) :=
  ((reaches_by_bit s f.z).trans (reaches_by_scf_ccf _ f.c)).trans (reaches_by_n_h _ f.n f.h)

/-! ## A, and the whole state -/

/-- XOR with the difference, and the flags restored. -/
theorem reaches_setReg8_a (v : Byte) : Reaches s (s.setReg8 .a v) := by
  have hxor : InstrStep s ((s.setReg8 .a v).withFlags ⟨isZero v, false, false, false⟩) := by
    refine ⟨.xorI (s.a ^^^ v), rfl, fun inputs out => ?_⟩
    have hv : s.a ^^^ (s.a ^^^ v) = v := by rw [← BitVec.xor_assoc, BitVec.xor_self, BitVec.zero_xor]
    exact (accumulate_eq _ _ _).trans (by simp [aluXor, State.operandValue, State.operandAccess, State.withPorts,
      State.withFlags, hv])
  exact (Relation.ReflTransGen.single hxor).trans (reaches_withFlags _ s.f)

/-- Whatever the registers and the flags are to be: one after the other, each keeping those set before. -/
theorem reaches_of_same_pc_fault_mem {s t : State} (hpc : t.pc = s.pc) (hf : t.fault = s.fault) (hmem : t.mem = s.mem) :
    Reaches s (t.withPorts s.inputs s.out) := by
  have hpath := (reaches_setReg8_a s t.a).trans <| (reaches_withFlags _ t.f).trans <|
    (reaches_setReg16 _ .bc (t.reg16 .bc)).trans <| (reaches_setReg16 _ .de (t.reg16 .de)).trans <|
    (reaches_setReg16 _ .hl (t.reg16 .hl)).trans (reaches_setReg16 _ .sp t.sp)
  simpa [State.withFlags, State.withPorts, hpc, hf, hmem] using hpath

end Sys2Proof.Machine
end

section
/-! The statement of 70_reset_and_hazards.md on the reachable states, settled. -/

namespace Sys2Proof.Proofs

open Sys2Proof Sys2Proof.Machine

/-- Settles O23: from the power-on state with that memory every register and the flags can be set, and neither PC, the
latch nor memory has to change. -/
theorem everyRunningStateIsReachableFromReset : Obligations.EveryRunningStateIsReachableFromReset := by
  intro s hf hpc
  have hpath := reaches_of_same_pc_fault_mem (s := State.powerOn s.mem) hpc hf rfl
  obtain ⟨ws, out, hws, hrun⟩ := hpath.exists_words rfl ⟨.idle, []⟩
  exact ⟨ws, _, hws, hrun, rfl⟩

end Sys2Proof.Proofs
end
